-- ==== Sys2Proof/Word.lean ====
section
/-! DEFINITION. The values of the hardware. Every index, count and capacity is a natural number unless a width
is stated (00_scope.md R9). The widths of an element (`DW`) and of a command word (`3 + AW`) are parameters of
the instance (R5, R61), so such a value is held as the number its bits denote (R9, `nat`; R42), with the check
below that it has no more bits than that (log entry 2). -/

namespace Sys2Proof

/-- `v` is the number denoted by a vector of `n` bits: "bits `n`" of R9. -/
def isBits (n v : Nat) : Bool := decide (v < 2 ^ n)

end Sys2Proof
end

