-- ==== Sys2Proof/Config.lean ====
section
/-! DEFINITION. The configuration of one instance: the parameters of 00_scope.md R5, chosen before
reset and never changed afterwards (R2). Nothing of this hardware is a free value
(93_implementation_defined.md, the sentence after its first table), so there is no opaque constant here. -/

namespace Sys2Proof

/-- `KIND` (R5): whether the instance has a tail. -/
inductive Kind where
  /-- Head and tail: a first-in first-out queue (CR, UR8, UR16). -/
  | ring
  /-- Head only: a write-only accumulator (CM, UM8, UM16). -/
  | manx
deriving DecidableEq, Repr

/-- The two index widths of the unchecked mode; another width cannot be written down (R7, R159). -/
inductive Width where
  | w8
  | w16
deriving DecidableEq, Repr

/-- `MODE` with the parameter that belongs to it (R5): the explicit capacity `N` of the checked
mode, the index width `W` of the unchecked one, whose capacity is never a field (R24). -/
inductive Mode where
  | checked (n : Nat)
  | unchecked (w : Width)
deriving DecidableEq, Repr

/-- The parameters of one instance (R5), with the defaults R5 gives. -/
structure Config where
  kind : Kind
  mode : Mode
  /-- `DW`, the width of an element in bits (R8). -/
  dw : Nat
  /-- `DEFAULT`, what every slot holds after reset (R5, R8). -/
  dflt : Nat := 0
  lowerLimit : Nat := 2
  upperLimit : Nat := 65535
  limitsEnforced : Bool := true
deriving DecidableEq, Repr

/-- Configuration CR (R100). -/
def Config.cr (n dw : Nat) : Config := { kind := .ring, mode := .checked n, dw := dw }

/-- Configurations UR8 and UR16 (R120). -/
def Config.ur (w : Width) (dw : Nat) : Config := { kind := .ring, mode := .unchecked w, dw := dw }

/-- Configuration CM (R135). -/
def Config.cm (n dw : Nat) : Config := { kind := .manx, mode := .checked n, dw := dw }

/-- Configurations UM8 and UM16 (R145). -/
def Config.um (w : Width) (dw : Nat) : Config := { kind := .manx, mode := .unchecked w, dw := dw }

/-- The configuration of `State.reset` and of `decodeTableWord`, which take none: a checked ring of
256 slots of 8 bits with the default limits (DESIGN CHOICE, log entry 3). The meanings and the
statements are about every configuration. -/
def Config.standard : Config := Config.cr 256 8

end Sys2Proof
end

