-- ==== Sys2Proof/Machine/Params.lean ====
section
/-! DEFINITION. What the parameters of R5 determine: the capacity, the widths of an index, of the
operand and of a command word, and which configurations are legal (R5, R6, R7, R61). -/

namespace Sys2Proof

/-- `W` in bits (R7). -/
def Width.bits : Width → Nat
  | .w8 => 8
  | .w16 => 16

/-- `N`, the number of slots: the explicit constant of the checked mode, `2^W` in the unchecked (R5). -/
def Config.capacity (c : Config) : Nat :=
  match c.mode with
  | .checked n => n
  | .unchecked w => 2 ^ w.bits

/-- `ceil(log2 n)`, for `n >= 1`. -/
def ceilLog2 (n : Nat) : Nat := if n ≤ 1 then 0 else Nat.log2 (n - 1) + 1

/-- `IW`, the physical width of an index (R5): `max(1, ceil(log2 N))` checked, `W` unchecked. -/
def Config.indexWidth (c : Config) : Nat :=
  match c.mode with
  | .checked n => max 1 (ceilLog2 n)
  | .unchecked w => w.bits

/-- `AW = max(DW, IW)`, the width of a command's operand field (R61). -/
def Config.argWidth (c : Config) : Nat := max c.dw c.indexWidth

/-- The length `3 + AW` of a command word (R61, R67). -/
def Config.wordWidth (c : Config) : Nat := 3 + c.argWidth

/-- The parameters describe a configuration of the spec: `N >= 1` (R6), `DW >= 1` and a `DEFAULT`
of `DW` bits (R5). The widths outside 8 and 16 cannot be written (R7). -/
def Config.isConfiguration (c : Config) : Bool :=
  decide (1 ≤ c.capacity) && decide (1 ≤ c.dw) && isBits c.dw c.dflt

/-- The condition of the construction failure (R156): checked mode, limits enforced, and `N` outside
`[LOWER_LIMIT, UPPER_LIMIT]`. No check is made of an unchecked instance (R7, 90_conflicts.md C3). -/
def Config.capacityOutOfBounds (c : Config) : Bool :=
  match c.mode with
  | .checked n => c.limitsEnforced && (decide (n < c.lowerLimit) || decide (c.upperLimit < n))
  | .unchecked _ => false

/-- Construction succeeds (R6, R7). -/
def Config.legal (c : Config) : Bool := c.isConfiguration && !c.capacityOutOfBounds

end Sys2Proof
end

