-- ==== Sys2Proof/Syntax.lean ====
section
/-! DEFINITION. The commands, one constructor per row of spec/opcode_table.json (R60, R62). `new()` is
the reset event and no command (R72); `ITEMS` and `NEW` are pseudo-instructions (R73), expanded in
Machine/Assembly.lean. -/

namespace Sys2Proof

/-- A command with its operand already assembled (R63, R71). -/
inductive Instr where
  /-- `NOP`: the step in which the host asks nothing (R87). -/
  | nop
  /-- `PUSH item` (R101, R121, R136, R146). -/
  | push (item : Nat)
  /-- `POP` (R102, R122). -/
  | pop
  /-- `CLEAR` (R103, R123). -/
  | clear
  /-- `LEN` (R104, R124). -/
  | len
  /-- `ITEM i` (R88). -/
  | item (i : Nat)
deriving DecidableEq, Repr

end Sys2Proof
end

