-- ==== Sys2Proof/WellFormed.lean ====
section
/-! DEFINITION. Which commands a configuration admits (30_encoding.md R65), with the ranges of their
operands (R63, R69): an element of `PUSH` has `DW` bits, an index of `ITEM` names a slot, and `POP`,
`CLEAR` and `LEN` need a tail. -/

namespace Sys2Proof

/-- The command is admitted in the configuration, with its operand in range. -/
def WellFormed (c : Config) (i : Instr) : Bool :=
  match i with
  | .nop => true
  | .push item => isBits c.dw item
  | .pop => decide (c.kind = .ring)
  | .clear => decide (c.kind = .ring)
  | .len => decide (c.kind = .ring)
  | .item i => decide (i < c.capacity)

end Sys2Proof
end

