-- ==== Sys2Proof/Decode.lean ====
section
/-! DEFINITION. The decoder of 30_encoding.md R71, total on every number, and the encoder that goes
with it (R61, R62, R63). A command is one word (R67), so there is nothing to fetch in pieces and no
byte order (R42). -/

namespace Sys2Proof

/-- What the decoder says of a word: a command, or one of its three verdicts (R71). `notAWord` is the
model's own: the number needs more than the `3 + AW` bits a command word has, so the interface cannot
present it (log entry 5). -/
inductive Verdict where
  | command (i : Instr)
  | unsupported
  | outOfRange
  | reserved
  | notAWord
deriving DecidableEq, Repr

/-- The operation code `CW[2:0]` (R61). -/
def opField (w : Nat) : Nat := w % 8

/-- The operand `CW[AW+2:3]` (R61). -/
def argField (c : Config) (w : Nat) : Nat := w / 8 % 2 ^ c.argWidth

/-- The element of `PUSH`: `arg[DW-1:0]`, the bits above ignored (R63). -/
def elementOperand (c : Config) (arg : Nat) : Nat := arg % 2 ^ c.dw

/-- The verdict on a command that needs a tail (R65, R71). -/
def ringOnly (c : Config) (i : Instr) : Verdict :=
  match c.kind with
  | .ring => .command i
  | .manx => .unsupported

/-- `ITEM(nat(arg))` where that names a slot (R63, R71). -/
def itemCommand (c : Config) (arg : Nat) : Verdict :=
  if arg < c.capacity then .command (.item arg) else .outOfRange

/-- `decode(config, CW)` of R71. -/
def decode (c : Config) (w : Nat) : Verdict :=
  if isBits c.wordWidth w then
    match opField w with
    | 0 => .command .nop
    | 1 => .command (.push (elementOperand c (argField c w)))
    | 2 => ringOnly c .pop
    | 3 => ringOnly c .clear
    | 4 => ringOnly c .len
    | 5 => itemCommand c (argField c w)
    | _ => .reserved
  else .notAWord

/-- The operation code of a command (R62). -/
def opOf : Instr → Nat
  | .nop => 0
  | .push _ => 1
  | .pop => 2
  | .clear => 3
  | .len => 4
  | .item _ => 5

/-- The operand field of a command; zeros where it is ignored (R63). -/
def argOf : Instr → Nat
  | .nop => 0
  | .push item => item
  | .pop => 0
  | .clear => 0
  | .len => 0
  | .item i => i

/-- The command word `nat(arg) * 8 + nat(op)` (R61, R71). -/
def encode (i : Instr) : Nat := argOf i * 8 + opOf i

/-- The command read from the table's numbering of a word, in the configuration of `State.reset`. -/
def decodeTableWord (nbits w : Nat) : Option Instr :=
  match decode Config.standard (w % 2 ^ nbits) with
  | .command i => some i
  | _ => none

end Sys2Proof
end

