-- ==== Sys2Proof/Machine/State.lean ====
section
/-! DEFINITION. The state of one instance (10_state.md R20): `head`, `tail`, `buffer`. Beside them
stand three fields that are no state of the hardware: the instance's parameters, constant (R5), what the host will
present (R12, R25) and the response to the step just made (R64); log entries 1, 4 and 6. -/

namespace Sys2Proof.Machine

/-- The backing array (R23, R40): the slots that do not hold `DEFAULT`, by slot number, strictly
rising, none equal to `DEFAULT`. A slot not listed reads as `DEFAULT` (R34; log entry 2). -/
abbrev Memory := List (Nat × Nat)

/-- The response of a step (R64). -/
inductive Response where
  /-- `Ack`, of `NOP`, `PUSH` and `CLEAR`. -/
  | ack
  /-- `None`: `POP` found the buffer empty. -/
  | popNone
  /-- `Some(index, element)` of `POP`. -/
  | popSome (index : Nat) (element : Nat)
  /-- `Count(n)` of `LEN`. -/
  | count (n : Nat)
  /-- `Elem(element)` of `ITEM`. -/
  | elem (element : Nat)
deriving DecidableEq, Repr

/-- What the host does in one step: it presents command words (one is the rule; none is an idle step, D4;
two or more is the refusal X4 of R160), or it applies the reset event (R72, R175). -/
inductive HostEvent where
  | present (words : List Nat)
  | reset
deriving DecidableEq, Repr

/-- The machine. -/
structure State where
  /-- The parameters of the instance; no step changes them (R2, R5). -/
  cfg : Config
  /-- `head`, the slot the next `PUSH` writes (R21). -/
  head : Nat
  /-- `tail`, the slot the next successful `POP` reads; absent in a manx (R22). -/
  tail : Option Nat
  /-- `buffer` (R23). -/
  buffer : Memory
  /-- What the host presents in the coming steps, the next step's first; nothing once it is used up. -/
  inputs : List HostEvent
  /-- The response to the last step; none right after reset (R35). -/
  response : Option Response
deriving DecidableEq, Repr

/-- Why a run stops with a failure. -/
inductive Fault where
  /-- The construction failure of R156, raised by the reset event alone. Safe: the spec gives no
  instance, hence no state, in that case. -/
  | capacityOutOfBounds
  /-- An access to a slot `i >= N`, which R41 does not define, raised by `memRead` and `memWrite`.
  Safe: R30 says no reachable state makes such an access. -/
  | noSuchSlot (i : Nat)
deriving DecidableEq, Repr

/-- Why the model gives a step no meaning. -/
inductive Refusal where
  /-- An instruction that has no meaning yet, raised by `exec` alone. Safe. -/
  | notModelled (mnemonic : String)
  /-- X1 of R160: `op` is 6 or 7, raised by the fetch. Safe: the spec gives no next state. -/
  | reservedCommand
  /-- X2 of R160: `POP`, `CLEAR` or `LEN` on a manx, raised by the fetch and by those three meanings. Safe: the
  spec gives no next state. -/
  | unsupportedCommand
  /-- X3 of R160: `ITEM` with an index `>= N`, raised by the fetch and by `ITEM`. Safe: the spec gives no
  next state. -/
  | indexOutOfRange
  /-- X4 of R160: two commands for one step, raised by the fetch before any decoding (R163). Safe: the spec gives no
  next state. -/
  | concurrentCommands
  /-- A number of more than `3 + AW` bits presented as a command word, raised by the fetch (log entry 5). Safe:
  no hardware of the configuration can be presented with it. -/
  | notACommandWord
  /-- Reset with parameters that are no configuration of the spec, `N = 0` among them (R6; U2 of
  93_implementation_defined.md), raised by the reset event. Safe: the spec gives no instance. -/
  | notAConfiguration
deriving DecidableEq, Repr

/-- The outcome of one step (R12). -/
abbrev Result := Host.Outcome State Fault Refusal

/-- The reset values of R34, for any parameters; the host has presented nothing yet. -/
def State.initial (c : Config) : State :=
  { cfg := c
    head := 0
    tail := match c.kind with
      | .ring => some 0
      | .manx => none
    buffer := []
    inputs := []
    response := none }

/-- The machine right after reset, in the standard configuration (log entry 3). -/
def State.reset : State := State.initial Config.standard

end Sys2Proof.Machine
end

