-- ==== Sys2Proof/Machine/Ops.lean ====
section
/-! DEFINITION. The named operations every meaning is made of: the two advances (40_common.md R80, R81,
R83), the backing array (20_memory.md R41), the index registers, the response, and construction (R105,
R125, R138, R148, R156). This hardware takes no exception and returns from none (60_exceptions.md R164,
R165): there is no such operation. -/

namespace Sys2Proof.Machine

/-- Sequencing: a fault or a refusal ends the step. -/
def andThen (r : Result) (f : State → Result) : Result :=
  match r with
  | .next s => f s
  | .fault e => .fault e
  | .refused e => .refused e

/-! ### Advancing an index -/

/-- The checked advance `adv_chk` at capacity `n` (R80): an explicit compare and wrap. -/
def advChk (n : Nat) (i : Nat) : Nat := if i ≥ n - 1 then 0 else i + 1

/-- The wrapping advance `adv_wrap` (R81): the `W`-bit increment, its carry out discarded. -/
def advWrap (w : Width) (i : Nat) : Nat := (BitVec.ofNat w.bits i + 1#w.bits).toNat

/-- `ADV` of the instance's mode (R83). -/
def adv (c : Config) (i : Nat) : Nat :=
  match c.mode with
  | .checked n => advChk n i
  | .unchecked w => advWrap w i

/-! ### The backing array -/

/-- What slot `a` holds: its entry, else `DEFAULT` (R34, R48). -/
def Memory.read (d : Nat) : Memory → Nat → Nat
  | [], _ => d
  | (b, v) :: m, a => if a = b then v else Memory.read d m a

/-- Slot `a` now holds `v`; writing `DEFAULT` removes the entry, so equal arrays are equal lists. -/
def Memory.write (d : Nat) : Memory → Nat → Nat → Memory
  | [], a, v => if v = d then [] else [(a, v)]
  | (b, u) :: m, a, v =>
    if a < b then (if v = d then (b, u) :: m else (a, v) :: (b, u) :: m)
    else if a = b then (if v = d then m else (a, v) :: m)
    else (b, u) :: Memory.write d m a v

/-- The canonical form from slot `lo` upward: strictly rising, no entry equal to `DEFAULT`. -/
def Memory.wfFrom (d : Nat) : Nat → Memory → Bool
  | _, [] => true
  | lo, (a, v) :: m => decide (lo ≤ a) && decide (v ≠ d) && Memory.wfFrom d (a + 1) m

/-- The canonical form of the backing array. -/
def Memory.wf (d : Nat) (m : Memory) : Bool := Memory.wfFrom d 0 m

/-- Every entry names one of `n` slots and holds an element of `dw` bits (R23). -/
def Memory.fits (n dw : Nat) (m : Memory) : Bool :=
  m.all fun cell => decide (cell.1 < n) && isBits dw cell.2

/-- `buffer[i]`. -/
def State.slot (s : State) (i : Nat) : Nat := Memory.read s.cfg.dflt s.buffer i

/-- `MemRead(i)` (R41): hands `buffer[i]` on and changes nothing; undefined for `i >= N` (log entry 8). -/
def memRead (i : Nat) (s : State) (k : Nat → Result) : Result :=
  if i < s.cfg.capacity then k (s.slot i) else .fault (.noSuchSlot i)

/-- `MemWrite(i, v)` (R41): `buffer[i] = v`, all else as before; undefined for `i >= N` (log entry 8). -/
def memWrite (i : Nat) (v : Nat) (s : State) : Result :=
  if i < s.cfg.capacity then .next { s with buffer := Memory.write s.cfg.dflt s.buffer i v }
  else .fault (.noSuchSlot i)

/-! ### The index registers -/

/-- The tail as the commands read it: absent in a manx whatever the field holds (R22; log entry 9). -/
def State.ringTail (s : State) : Option Nat :=
  match s.cfg.kind with
  | .ring => s.tail
  | .manx => none

/-- `head <- v`. -/
def State.setHead (s : State) (v : Nat) : State := { s with head := v }

/-- `tail <- v`. -/
def State.setTail (s : State) (v : Nat) : State := { s with tail := some v }

/-- `head <- ADV(head)`, second line of the shared routine (R90). -/
def State.advanceHead (s : State) : State := s.setHead (adv s.cfg s.head)

/-- `if head == tail then tail <- ADV(tail)`, last line of the shared routine (R90): the eviction. A
manx has no tail to chase (R136). -/
def State.chaseTail (s : State) : State :=
  match s.ringTail with
  | some t => if s.head = t then s.setTail (adv s.cfg t) else s
  | none => s

/-- `respond r` (R10, R64). -/
def State.respond (s : State) (r : Response) : State := { s with response := some r }

/-! ### Construction -/

/-- `new` as a partial constructor (R156): no state exactly where construction does not succeed. -/
def State.new (c : Config) : Option State := if c.legal then some (State.initial c) else none

/-- The reset event (R175, R177): destruction of the instance and construction of one with the same
parameters; what the host will present next is not the hardware's and stays
(log entries 7 and 10). -/
def resetEvent (s : State) : Result :=
  if s.cfg.capacityOutOfBounds then .fault .capacityOutOfBounds
  else if s.cfg.isConfiguration then .next { State.initial s.cfg with inputs := s.inputs }
  else .refused .notAConfiguration

end Sys2Proof.Machine
end

