-- ==== Sys2Proof/Machine/Flags.lean ====
section
/-! DEFINITION. The status values `HEAD`, `TAIL`, `EMPTY`, `FULL`, `LENGTH` (10_state.md R26 to R28; R13) and the
distance between the indices (40_common.md R84). They are functions of the state and are stored
nowhere (R20); a manx has `HEAD` alone (R28, R135), so the others answer `none` there. -/

namespace Sys2Proof.Machine

/-- `DIST(h, t)` at capacity `n` (R84). -/
def indexDist (n h t : Nat) : Nat := if t > h then n + h - t else h - t

/-- `HEAD` (R13). -/
def State.headValue (s : State) : Nat := s.head

/-- `TAIL` (R13). -/
def State.tailValue (s : State) : Option Nat := s.ringTail

/-- `EMPTY` (R26): `head == tail`. -/
def State.empty (s : State) : Option Bool := s.ringTail.map fun t => s.head == t

/-- `FULL` (R27): `ADV(head) == tail`. -/
def State.full (s : State) : Option Bool := s.ringTail.map fun t => adv s.cfg s.head == t

/-- `LENGTH` (R28), the value `LEN` answers. -/
def State.length (s : State) : Option Nat := s.ringTail.map fun t => indexDist s.cfg.capacity s.head t

end Sys2Proof.Machine
end

