-- ==== Sys2Proof/Machine/Operands.lean ====
section
/-! DEFINITION. The operand forms. A command's own operand is assembled by the decoder (R63: `elementOperand`
and the index of `ITEM` in Decode.lean). What is left are the effective addresses of 20_memory.md section
4: `PUSH` stores at `head`, `POP` loads at `tail`, `ITEM` loads at its operand, each with the value
before the step (R54: slot number = the index itself). -/

namespace Sys2Proof.Machine

/-- The slot `PUSH` stores to. -/
def pushAddress (s : State) : Nat := s.head

/-- The slot a `POP` that finds the buffer not empty loads from; none where there is no tail. -/
def popAddress (s : State) : Option Nat := s.ringTail

/-- The slot `ITEM i` loads from. -/
def itemAddress (i : Nat) : Nat := i

end Sys2Proof.Machine
end

