-- ==== Sys2Proof/Machine/Buffer.lean ====
section
/-! DEFINITION. The buffer commands: `PUSH` in all four families, and `POP`, `CLEAR`, `LEN` of the two ring
families, each written once over `ADV` (40_common.md R90: the modes "differ only in that function"). -/

namespace Sys2Proof.Machine

/-- `PUSH item` (R101, R121 in a ring; R136, R146 in a manx, which has no tail to chase): write first, then
advance `head`, then compare the advanced `head` with the tail. -/
def execPush (item : Nat) (s : State) : Result :=
  andThen (memWrite (pushAddress s) item s) fun s =>
    .next (s.advanceHead.chaseTail.respond .ack)

/-- `POP` (R102, R122); a manx has none (R139, R150). -/
def execPop (s : State) : Result :=
  match popAddress s with
  | none => .refused .unsupportedCommand
  | some idx =>
    if idx ≠ s.head then
      memRead idx s fun e => .next ((s.setTail (adv s.cfg idx)).respond (.popSome idx e))
    else .next (s.respond .popNone)

/-- `CLEAR` (R103, R123): `tail <- head`, no slot written; a manx has none (R139, R150). -/
def execClear (s : State) : Result :=
  match s.ringTail with
  | none => .refused .unsupportedCommand
  | some _ => .next ((s.setTail s.head).respond .ack)

/-- `LEN` (R104, R124): `DIST(head, tail)`; a manx has none (R139, R150). -/
def execLen (s : State) : Result :=
  match s.ringTail with
  | none => .refused .unsupportedCommand
  | some t => .next (s.respond (.count (indexDist s.cfg.capacity s.head t)))

end Sys2Proof.Machine
end

