-- ==== Sys2Proof/Machine/Common.lean ====
section
/-! DEFINITION. The two commands whose meaning does not depend on the configuration: `NOP` and `ITEM`
(40_common.md R87, R88). -/

namespace Sys2Proof.Machine

/-- `NOP` (R87). -/
def execNop (s : State) : Result := .next (s.respond .ack)

/-- `ITEM i` (R88). -/
def execItem (i : Nat) (s : State) : Result :=
  if i ≥ s.cfg.capacity then .refused .indexOutOfRange
  else memRead (itemAddress i) s fun e => .next (s.respond (.elem e))

end Sys2Proof.Machine
end

