-- ==== Sys2Proof/Machine/Dispatch.lean ====
section
/-! DEFINITION. The meaning of every command, one arm per constructor of Instr. -/

namespace Sys2Proof.Machine

def exec (i : Instr) (s : State) : Host.Outcome State Fault Refusal :=
  match i with
  | .nop => Sys2Proof.Machine.execNop s
  | .push item => Sys2Proof.Machine.execPush item s
  | .pop => Sys2Proof.Machine.execPop s
  | .clear => Sys2Proof.Machine.execClear s
  | .len => Sys2Proof.Machine.execLen s
  | .item idx => Sys2Proof.Machine.execItem idx s

end Sys2Proof.Machine
end

