-- ==== Sys2Proof/Machine/Fetch.lean ====
section
/-! DEFINITION. What the host presents for one step, and what comes of it before any command runs (30_encoding.md
R66, R71; 60_exceptions.md R160, R163). There is no program counter and no instruction memory (10_state.md
R25): the next command is what the host presents next. -/

namespace Sys2Proof.Machine

/-- What a step is to do, with the state in which the host's presentation has been taken. -/
inductive Fetched where
  | run (i : Instr) (s : State)
  | reset (s : State)
  | refuse (r : Refusal)
deriving DecidableEq, Repr

/-- The decoder's verdict as the step takes it: a command runs, the rest is refused (R66, R71). -/
def fetchWord (w : Nat) (s : State) : Fetched :=
  match decode s.cfg w with
  | .command i => .run i s
  | .unsupported => .refuse .unsupportedCommand
  | .outOfRange => .refuse .indexOutOfRange
  | .reserved => .refuse .reservedCommand
  | .notAWord => .refuse .notACommandWord

/-- The words presented for one step: none is the idle step `NOP` (D4), one is decoded, more are refused before
any decoding (R160 X4, R163; log entry 11). -/
def fetchWords (ws : List Nat) (s : State) : Fetched :=
  match ws with
  | [] => .run .nop s
  | [w] => fetchWord w s
  | _ :: _ :: _ => .refuse .concurrentCommands

/-- Takes the host's next presentation; a host that presents nothing more leaves the machine idle
(log entry 4). -/
def fetch (s : State) : Fetched :=
  match s.inputs with
  | [] => .run .nop s
  | .reset :: rest => .reset { s with inputs := rest }
  | .present ws :: rest => fetchWords ws { s with inputs := rest }

/-- The host presents `w` alone in the next step, and what it was to present after that. -/
def State.present (s : State) (w : Nat) : State :=
  { s with inputs := .present [w] :: s.inputs }

end Sys2Proof.Machine
end

