-- ==== Sys2Proof/Machine/Step.lean ====
section
/-! DEFINITION. One step (00_scope.md R12): the next state with a response, a refusal, or, for construction
only, a failure. -/

namespace Sys2Proof.Machine

/-- One step of the machine. -/
def step (s : State) : Host.Outcome State Fault Refusal :=
  match fetch s with
  | .run i s' => exec i s'
  | .reset s' => resetEvent s'
  | .refuse r => .refused r

/-- The host presents the word `w` of `nbits` bits in the next step (log entry 4). -/
def State.withFetchWord (s : State) (nbits w : Nat) : State := s.present (w % 2 ^ nbits)

end Sys2Proof.Machine
end

