-- ==== Sys2Proof/Machine/Assembly.lean ====
section
/-! DEFINITION. The assembly syntax of 30_encoding.md R69 with the pseudo-instructions of R73: a line becomes what the
host then does, one event a step. The directive `.config` is a `Config`; `.rep` is `rep` below; both encode to
nothing (R69). A line is a list of characters (log entry 12). -/

namespace Sys2Proof.Machine.Assembly

/-- The characters before a comment, `;` to the end of the line. -/
def beforeComment : List Char → List Char
  | [] => []
  | c :: cs => if c = ';' then [] else c :: beforeComment cs

/-- The words of a line, separated by blanks; the first argument collects the word being read, last letter first. -/
def wordsOf : List Char → List Char → List (List Char)
  | [], [] => []
  | a :: acc, [] => [(a :: acc).reverse]
  | acc, c :: cs =>
    if c = ' ' ∨ c = '\t' then
      match acc with
      | [] => wordsOf [] cs
      | a :: acc => (a :: acc).reverse :: wordsOf [] cs
    else wordsOf (c :: acc) cs

/-- The value of a digit below `base`. -/
def digit (base : Nat) (c : Char) : Option Nat :=
  let v :=
    if '0' ≤ c ∧ c ≤ '9' then c.toNat - 48
    else if 'a' ≤ c ∧ c ≤ 'f' then c.toNat - 87
    else if 'A' ≤ c ∧ c ≤ 'F' then c.toNat - 55
    else base
  if v < base then some v else none

/-- The number the digits denote in `base`, on top of `acc`. -/
def digits (base : Nat) : Nat → List Char → Option Nat
  | acc, [] => some acc
  | acc, c :: cs => (digit base c).bind fun v => digits base (acc * base + v) cs

/-- An operand: decimal, or hexadecimal after `0x`. -/
def number : List Char → Option Nat
  | [] => none
  | '0' :: 'x' :: c :: cs => digits 16 0 (c :: cs)
  | c :: cs => digits 10 0 (c :: cs)

/-- The host presents one command. -/
def command (i : Instr) : HostEvent := .present [encode i]

/-- The command on a line of one or two words. -/
def instrOf : List (List Char) → Option Instr
  | [['N', 'O', 'P']] => some .nop
  | [['P', 'O', 'P']] => some .pop
  | [['C', 'L', 'E', 'A', 'R']] => some .clear
  | [['L', 'E', 'N']] => some .len
  | [['P', 'U', 'S', 'H'], n] => (number n).map .push
  | [['I', 'T', 'E', 'M'], n] => (number n).map .item
  | _ => none

/-- `ITEMS` (R73): `ITEM 0`, ..., `ITEM N-1` in that order. -/
def itemsCommands (c : Config) : List Instr := (List.range c.capacity).map .item

/-- What one line makes the host do; none where the line is no line of the syntax, or its command is not admitted in
the configuration or its operand is out of range (R65, R69). -/
def assembleLine (c : Config) (line : List Char) : Option (List HostEvent) :=
  match wordsOf [] (beforeComment line) with
  | [] => some []
  | [['I', 'T', 'E', 'M', 'S']] => some ((itemsCommands c).map command)
  | [['N', 'E', 'W']] => some [.reset]
  | ws => (instrOf ws).bind fun i => if WellFormed c i then some [command i] else none

/-- `.rep k` (R69): the body for each repetition number from 0, in order. -/
def rep (k : Nat) (body : Nat → List HostEvent) : List HostEvent := (List.range k).flatMap body

end Sys2Proof.Machine.Assembly
end

