-- ==== Sys2Proof/Machine/Counter.lean ====
section
/-! DEFINITION. The fixed-width overflow-wrapping counter as a block of its own (40_common.md R89): the `head` register of
an unchecked manx buffer taken alone. It has no other operation: no load, no decrement, no carry output, no compare. -/

namespace Sys2Proof.Machine

/-- The counter: one register of `W` bits. -/
structure Counter where
  width : Width
  value : Nat
deriving DecidableEq, Repr

/-- Reset: 0 (R89). -/
def Counter.reset (w : Width) : Counter := { width := w, value := 0 }

/-- "Increment by exactly one with overflow wraparound" (R89, R81), performed once per `PUSH`. -/
def Counter.increment (k : Counter) : Counter := { k with value := advWrap k.width k.value }

end Sys2Proof.Machine
end

