-- ==== Sys2Proof/Machine/Observe.lean ====
section
/-! DEFINITION. What a host can say of an instance (00_scope.md R13): the whole array `items` (43_checked_manx.md
R137), the live sequence of a ring (10_state.md R36), the chronological order of a manx (R141), the responses of
a sequence of commands, and the optional bit layout of a response (30_encoding.md R64). No operation of the machine uses these. -/

namespace Sys2Proof.Machine

/-- `items()` (R137, R147): the whole array in storage order. -/
def State.items (s : State) : List Nat := (List.range s.cfg.capacity).map s.slot

/-- The `l` slots that follow `t`, itself the first, in advance order. -/
def slotsFrom (c : Config) : Nat → Nat → List Nat
  | _, 0 => []
  | t, l + 1 => t :: slotsFrom c (adv c t) l

/-- The live slots of a ring, oldest first (R36): from `tail` up to but not including `head`. -/
def State.liveSlots (s : State) : List Nat :=
  match s.ringTail with
  | some t => slotsFrom s.cfg t (indexDist s.cfg.capacity s.head t)
  | none => []

/-- The live sequence of a ring (R36). -/
def State.live (s : State) : List Nat := s.liveSlots.map s.slot

/-- The elements a manx of at least `N` pushes retains, oldest first (R141): the slots from `head` round. -/
def State.chronological (s : State) : List Nat :=
  (slotsFrom s.cfg s.head s.cfg.capacity).map s.slot

/-- The commands run one after the other: the responses in order and the state after the last, or nothing if one
of them is refused or faults (R13, R25). -/
def runCommands : List Instr → State → Option (List Response × State)
  | [], s => some ([], s)
  | i :: is, s =>
    match exec i s with
    | .next s' => (runCommands is s').map fun out => (s'.response.toList ++ out.1, out.2)
    | _ => none

/-- The optional bit layout of a response (R64), each field as the number its bits denote. -/
structure ResponseWires where
  rvalid : Bool
  ridx : Nat
  rdata : Nat
  rcount : Nat
deriving DecidableEq, Repr

/-- R64: `rvalid` for `Some`, `Count` and `Elem`; a field a response does not carry is 0. -/
def Response.wires : Response → ResponseWires
  | .ack => { rvalid := false, ridx := 0, rdata := 0, rcount := 0 }
  | .popNone => { rvalid := false, ridx := 0, rdata := 0, rcount := 0 }
  | .popSome i e => { rvalid := true, ridx := i, rdata := e, rcount := 0 }
  | .count n => { rvalid := true, ridx := 0, rdata := 0, rcount := n }
  | .elem e => { rvalid := true, ridx := 0, rdata := e, rcount := 0 }

end Sys2Proof.Machine
end

