-- ==== Sys2Proof/Safety.lean ====
section
/-! DEFINITION. What every reachable state satisfies (10_state.md R30), in the terms the statements use. -/

namespace Sys2Proof.Machine

/-- A ring has a tail below `N`, a manx has none (R22, R30). -/
def State.tailInRange (s : State) : Bool :=
  match s.cfg.kind, s.tail with
  | .ring, some t => decide (t < s.cfg.capacity)
  | .manx, none => true
  | _, _ => false

/-- What a response carries is in the range R64 gives it: an index below `N`, an element of `DW` bits, a
count of at most `N - 1`. -/
def Response.inRange (c : Config) : Response → Bool
  | .ack => true
  | .popNone => true
  | .popSome i e => decide (i < c.capacity) && isBits c.dw e
  | .count n => decide (n < c.capacity)
  | .elem e => isBits c.dw e

/-- The invariant: a legal configuration (R6, R7), both indices below `N` (R30), the backing array in its
canonical form with nothing outside its `N` slots and nothing wider than `DW` bits (R23), and the last response in range
(R64). -/
abbrev State.Inv (s : State) : Prop :=
  s.cfg.legal = true ∧ s.head < s.cfg.capacity ∧ s.tailInRange = true ∧
    Memory.wf s.cfg.dflt s.buffer = true ∧ Memory.fits s.cfg.capacity s.cfg.dw s.buffer = true ∧
    s.response.all (Response.inRange s.cfg) = true

end Sys2Proof.Machine
end

