-- ==== Sys2Proof/Certificates/Slice0/Obligations.lean ====
section
/-! DEFINITION. The statements for the provers. Each docstring names the rule of spec/ it formalises. -/

open Sys2Proof Sys2Proof.Machine

/-- The index after `i`, written from the rules' own formulas: the compare and wrap of R80, the
remainder of R81. -/
def Sys2Proof.Claims.nextIndex (m : Mode) (i : Nat) : Nat :=
  match m with
  | .checked n => if i ≥ n - 1 then 0 else i + 1
  | .unchecked w => (i + 1) % 2 ^ w.bits

/-- The command is a `PUSH`. -/
def Sys2Proof.Claims.isPush : Instr → Bool
  | .push _ => true
  | _ => false

/-- The response with its slot index, if it carries one, moved on by `h` slots of `n`. -/
def Sys2Proof.Claims.shiftIndex (n h : Nat) : Response → Response
  | .popSome i e => .popSome ((i + h) % n) e
  | r => r

/-- The host presents, alone in this step, a word that is the command `i`. -/
def Sys2Proof.Claims.Presents (s : State) (i : Instr) : Prop :=
  ∃ w rest, s.inputs = .present [w] :: rest ∧ decode s.cfg w = .command i

/-- The host applies the reset event in this step. -/
def Sys2Proof.Claims.Resets (s : State) : Prop := ∃ rest, s.inputs = .reset :: rest

open Sys2Proof.Claims

/-! ### The command word -/

/-- Command words of 95_test_vectors.md section 2.4 and 2.8 decode as the table there says. -/
def Obligations.SampleWordsDecode : Prop :=
  decode (.cr 10 8) 0x7F8 = .command .nop ∧ decode (.cr 10 8) 0x7F9 = .command (.push 255) ∧
  decode (.cr 10 8) 0x55A = .command .pop ∧ decode (.cr 10 8) 0x003 = .command .clear ∧
  decode (.cr 10 8) 0x004 = .command .len ∧ decode (.cr 10 8) 0x04D = .command (.item 9) ∧
  decode (.cr 10 8) 0x055 = .outOfRange ∧ decode (.cr 10 8) 0x006 = .reserved ∧
  decode (.cr 10 8) 0x7FF = .reserved ∧ decode (.cm 10 8) 0x002 = .unsupported ∧
  decode (.cr 300 4) 0x95D = .command (.item 299) ∧ decode (.cr 300 4) 0xFF9 = .command (.push 15) ∧
  decode (.ur .w8 16) 0x00805 = .outOfRange

/-- Decode and encode agree (R71): an admitted command's word has the length of a command word and decodes to
that command, and what decodes to a command is an admitted command. -/
def Obligations.DecodeEncodeRoundTrip : Prop :=
  ∀ (c : Config) (i : Instr),
    (WellFormed c i = true → isBits c.wordWidth (encode i) = true ∧ decode c (encode i) = .command i) ∧
    ∀ w, decode c w = .command i → WellFormed c i = true

/-- The command word (R61), its operation codes (R62) and its operand (R63). -/
def Obligations.DecodeFollowsTheCaseTable : Prop :=
  (∀ (c : Config) (w : Nat), w < 2 ^ (3 + max c.dw c.indexWidth) →
    (w % 8 = 0 → decode c w = .command .nop) ∧
    (w % 8 = 1 → decode c w = .command (.push (w / 8 % 2 ^ c.dw))) ∧
    (w % 8 = 2 → decode c w = if c.kind = .ring then .command .pop else .unsupported) ∧
    (w % 8 = 3 → decode c w = if c.kind = .ring then .command .clear else .unsupported) ∧
    (w % 8 = 4 → decode c w = if c.kind = .ring then .command .len else .unsupported) ∧
    (w % 8 = 5 → decode c w = if w / 8 < c.capacity then .command (.item (w / 8)) else .outOfRange) ∧
    (w % 8 = 6 → decode c w = .reserved) ∧
    (w % 8 = 7 → decode c w = .reserved)) ∧
  encode .nop = 0 ∧ (∀ x, encode (.push x) = x * 8 + 1) ∧ encode .pop = 2 ∧ encode .clear = 3 ∧
  encode .len = 4 ∧ ∀ i, encode (.item i) = i * 8 + 5

/-- `encode(decode(CW)) = CW` exactly where the ignored bits of `CW` are zero (R71, R63). -/
def Obligations.EncodeDecodeIffIgnoredBitsZero : Prop :=
  ∀ (c : Config) (w : Nat) (i : Instr), decode c w = .command i →
    (encode i = w ↔
      (w % 8 = 1 → w / 8 < 2 ^ c.dw) ∧
      (w % 8 = 0 ∨ w % 8 = 2 ∨ w % 8 = 3 ∨ w % 8 = 4 → w / 8 = 0))

/-! ### Configuration and construction -/

/-- Legality of `N` (R6) and of `W` (R7), for an element type with a default value of its width (R5). -/
def Obligations.LegalConfigurations : Prop :=
  ∀ c : Config, 1 ≤ c.dw → c.dflt < 2 ^ c.dw →
    (∀ n, c.mode = .checked n →
      c.capacity = n ∧
      (c.limitsEnforced = true → (c.legal = true ↔ 1 ≤ n ∧ c.lowerLimit ≤ n ∧ n ≤ c.upperLimit)) ∧
      (c.limitsEnforced = false → (c.legal = true ↔ 1 ≤ n))) ∧
    (∀ w, c.mode = .unchecked w →
      c.legal = true ∧ c.capacity = 2 ^ w.bits ∧ (c.capacity = 256 ∨ c.capacity = 65536)) ∧
    (c.legal = true → State.new c = some (State.initial c)) ∧
    (c.legal = false → State.new c = none)

/-- What reset leaves (R34). -/
def Obligations.ResetValues : Prop :=
  ∀ c : Config, c.legal = true → ∃ s, State.new c = some s ∧
    s.head = 0 ∧ (c.kind = .ring → s.tail = some 0) ∧ (c.kind = .manx → s.tail = none) ∧
    (∀ i, i < c.capacity → s.slot i = c.dflt) ∧
    (c.kind = .ring → s.empty = some true ∧ s.length = some 0 ∧
      (c.capacity ≥ 2 → s.full = some false) ∧ (c.capacity = 1 → s.full = some true))

/-- The reset event on a running instance (R175, R177): every piece of state takes its reset value again, or
construction fails. The reset event leaves no response (R35: an event, not a command), held here as `none` in the
model's own field. That what the host is still to present stays (`t.inputs = rest`, the model's own field, log entry 4)
is the model's choice, DESIGN CHOICE, unsafe (log entry 10). -/
def Obligations.ResetEventConstructsAgain : Prop :=
  ∀ (s : State) (rest : List HostEvent), s.inputs = .reset :: rest →
    (s.cfg.legal = true → ∃ t, step s = .next t ∧ t.cfg = s.cfg ∧ t.head = 0 ∧
      (s.cfg.kind = .ring → t.tail = some 0) ∧ (s.cfg.kind = .manx → t.tail = none) ∧
      (∀ i, t.slot i = s.cfg.dflt) ∧ t.inputs = rest ∧ t.response = none) ∧
    (∀ n, s.cfg.mode = .checked n → s.cfg.limitsEnforced = true →
      n < s.cfg.lowerLimit ∨ s.cfg.upperLimit < n → step s = .fault .capacityOutOfBounds)

/-- `CapacityOutOfBounds` is raised by construction of a checked configuration under the condition of R156 and by
nothing else; as a partial constructor, `new` gives no state exactly under that condition. -/
def Obligations.OnlyConstructionFails : Prop :=
  (∀ s : State, step s = .fault .capacityOutOfBounds ↔
    Resets s ∧ ∃ n, s.cfg.mode = .checked n ∧ s.cfg.limitsEnforced = true ∧
      (n < s.cfg.lowerLimit ∨ n > s.cfg.upperLimit)) ∧
  ∀ c : Config, c.isConfiguration = true →
    (State.new c = none ↔ ∃ n, c.mode = .checked n ∧ c.limitsEnforced = true ∧
      (n < c.lowerLimit ∨ n > c.upperLimit))

/-! ### Invariants -/

/-- The invariant holds right after construction, whatever the host is going to present; in particular at
`State.reset`. -/
def Obligations.ResetEstablishesInv : Prop :=
  (∀ (c : Config) (es : List HostEvent), c.legal = true →
    State.Inv { State.initial c with inputs := es }) ∧ State.reset.Inv

/-- Every step keeps the invariant: the parameters, the ranges of both indices (R30), the canonical form of the
backing array, the width of its elements (R23) and the range of the response (R64). -/
def Obligations.StepKeepsInv : Prop :=
  ∀ s t : State, s.Inv → step s = .next t → t.Inv ∧ t.cfg = s.cfg

/-- From a state that meets the invariant no step faults: no access is out of range (R30, R41) and no
construction fails. -/
def Obligations.StepFromInvNeverFaults : Prop :=
  ∀ (s : State) (f : Fault), s.Inv → step s ≠ .fault f

/-- The range invariant (R30) over every run from reset of every configuration, whatever the host presents. -/
def Obligations.EveryRunKeepsIndicesInRange : Prop :=
  ∀ (c : Config) (es : List HostEvent) (k : Nat), c.legal = true →
    (∀ t : State, Sys2Proof.core.run k ({ State.initial c with inputs := es } : State) = .next t →
      t.cfg = c ∧ t.head < c.capacity ∧
      (c.kind = .ring → ∃ t0, t.tail = some t0 ∧ t0 < c.capacity)) ∧
    ∀ i, Sys2Proof.core.run k ({ State.initial c with inputs := es } : State) ≠ .fault (.noSuchSlot i)

/-- The occupancy invariant (R31), in both modes. -/
def Obligations.OccupancyBelowCapacity : Prop :=
  ∀ s : State, s.Inv → s.cfg.kind = .ring →
    (∃ l, s.length = some l ∧ l ≤ s.cfg.capacity - 1) ∧
    (s.cfg.capacity ≥ 2 → ∀ x, ∃ t l, exec (.push x) s = .next t ∧
      t.empty = some false ∧ t.tail ≠ some t.head ∧ t.length = some l ∧ 1 ≤ l ∧ l ≤ s.cfg.capacity - 1)

/-! ### Status values -/

/-- `FULL` (R27) and `LENGTH` (R28), the value `LEN` answers, and that a manx has neither, nor `EMPTY`. `FULL` is the
condition under which the next `PUSH` evicts. -/
def Obligations.FullAndLength : Prop :=
  (∀ s : State, s.Inv → s.cfg.kind = .manx →
    s.empty = none ∧ s.full = none ∧ s.length = none) ∧
  (∀ (s : State) (t0 : Nat), s.Inv → s.cfg.kind = .ring → s.tail = some t0 →
    s.full = some (nextIndex s.cfg.mode s.head == t0) ∧
    s.length = some (if t0 > s.head then s.cfg.capacity + s.head - t0 else s.head - t0) ∧
    (∃ l, s.length = some l ∧ l ≤ s.cfg.capacity - 1 ∧ l = s.live.length ∧
      exec .len s = .next { s with response := some (.count l) }) ∧
    (s.full = some true ↔ s.length = some (s.cfg.capacity - 1)) ∧
    (s.cfg.capacity ≥ 2 → ¬(s.full = some true ∧ s.empty = some true) ∧
      ∀ x, ∃ t, exec (.push x) s = .next t ∧ (t.tail ≠ s.tail ↔ s.full = some true))) ∧
  ∀ c : Config, c.legal = true → c.kind = .ring →
    (State.initial c).full = some (c.capacity == 1)

/-- `EMPTY` (R26): what it is, and which commands change it. -/
def Obligations.EmptyAndItsChanges : Prop :=
  (∀ (s : State) (t0 : Nat), s.Inv → s.cfg.kind = .ring → s.tail = some t0 →
    s.empty = some (s.head == t0)) ∧
  (∀ (s t : State) (i : Instr), s.Inv → s.cfg.kind = .ring → exec i s = .next t →
    (s.empty = some true → t.empty = some false → isPush i = true) ∧
    (isPush i = true → s.cfg.capacity ≥ 2 → t.empty = some false) ∧
    (s.empty = some false → t.empty = some true →
      i = .clear ∨ i = .pop ∧ s.length = some 1) ∧
    (i = .clear → t.empty = some true) ∧
    (i = .pop → s.length = some 1 → t.empty = some true)) ∧
  ∀ c : Config, c.legal = true → c.kind = .ring → (State.initial c).empty = some true

/-! ### Index arithmetic -/

/-- The two advances (R80, R81), with their corner cases. -/
def Obligations.AdvanceFormulas : Prop :=
  (∀ n i, advChk n i = if i ≥ n - 1 then 0 else i + 1) ∧
  (∀ n i, i < n → advChk n i = (i + 1) % n ∧ advChk n i < n) ∧
  (∀ n i, n ≤ i → advChk n i = 0) ∧
  advChk 1 0 = 0 ∧ advChk 2 0 = 1 ∧ advChk 2 1 = 0 ∧
  (∀ (w : Width) (i : BitVec w.bits), advWrap w i.toNat = (i + 1#w.bits).toNat) ∧
  (∀ (w : Width) (i : Nat), advWrap w i = (i + 1) % 2 ^ w.bits) ∧
  advWrap .w8 0xFF = 0x00 ∧ advWrap .w8 0xFE = 0xFF ∧ advWrap .w16 0xFFFF = 0x0000

/-- `ADV` (R83) is one cycle through all `N` slots. -/
def Obligations.AdvanceIsOneCycle : Prop :=
  ∀ c : Config,
    (∀ n, c.mode = .checked n → adv c = advChk n) ∧ (∀ w, c.mode = .unchecked w → adv c = advWrap w) ∧
    ∀ i, i < c.capacity →
      adv c i = (i + 1) % c.capacity ∧ adv c i < c.capacity ∧
      (adv c i = i ↔ c.capacity = 1) ∧ (adv c i = 0 ↔ i = c.capacity - 1) ∧
      (∃ j, j < c.capacity ∧ adv c j = i ∧ ∀ k, k < c.capacity → adv c k = i → k = j) ∧
      ∀ j, j < c.capacity → ∃ k, k < c.capacity ∧ (adv c)^[k] i = j

/-- Repeated advance (R86), and `head` after pushes from reset in every configuration. -/
def Obligations.RepeatedAdvance : Prop :=
  (∀ (c : Config) (i k : Nat), i < c.capacity →
    (adv c)^[k] i = (i + k) % c.capacity ∧ (adv c)^[c.capacity] i = i) ∧
  ∀ (c : Config) (xs : List Nat), c.legal = true →
    ∃ rs t, runCommands (xs.map .push) (State.initial c) = some (rs, t) ∧
      t.head = xs.length % c.capacity

/-- The laws of `DIST` (R84). -/
def Obligations.DistanceLaws : Prop :=
  ∀ (c : Config) (h t : Nat), h < c.capacity → t < c.capacity →
    indexDist c.capacity h t = (if t > h then c.capacity + h - t else h - t) ∧
    indexDist c.capacity h t = (h + c.capacity - t) % c.capacity ∧
    indexDist c.capacity h t ≤ c.capacity - 1 ∧
    (adv c)^[indexDist c.capacity h t] t = h ∧
    (indexDist c.capacity h t = 0 ↔ h = t) ∧
    (indexDist c.capacity h t = c.capacity - 1 ↔ adv c h = t) ∧
    (adv c h ≠ t → indexDist c.capacity (adv c h) t = indexDist c.capacity h t + 1) ∧
    (h ≠ t → indexDist c.capacity h (adv c t) + 1 = indexDist c.capacity h t) ∧
    (∀ w, c.mode = .unchecked w →
      indexDist c.capacity h t = (BitVec.ofNat w.bits h - BitVec.ofNat w.bits t).toNat) ∧
    c.capacity + h < 2 ^ (c.indexWidth + 1) ∧ indexDist c.capacity h t < 2 ^ c.indexWidth

/-! ### The backing array -/

/-- `MemRead` and `MemWrite` (R41) on their domain: neither faults, a read changes nothing, a write changes one
slot. -/
def Obligations.MemReadAndMemWrite : Prop :=
  ∀ (s : State) (i v : Nat), s.Inv → i < s.cfg.capacity →
    (∀ k, memRead i s k = k (s.slot i)) ∧
    ∃ t, memWrite i v s = .next t ∧ t.slot i = v ∧ (∀ j, j ≠ i → t.slot j = s.slot j) ∧
      t.head = s.head ∧ t.tail = s.tail ∧ t.cfg = s.cfg ∧ t.inputs = s.inputs ∧ t.response = s.response ∧
      Memory.wf t.cfg.dflt t.buffer = true

/-! ### The commands: what each answers, and all it leaves as it was -/

/-- `NOP` (R87), in every state of every configuration. -/
def Obligations.NopChangesNothing : Prop :=
  (∀ s : State, exec .nop s = .next { s with response := some .ack }) ∧
  ∀ (c : Config) (w : Nat), w < 2 ^ c.wordWidth → w % 8 = 0 → decode c w = .command .nop

/-- `PUSH` on a ring: R101 checked, R121 unchecked, both the routine of R90. The slot stored to is the one
the meaning computes, `pushAddress`; every other slot, the parameters and the host's inputs stay as they were. -/
def Obligations.PushOnRing : Prop :=
  ∀ (s : State) (t0 x : Nat), s.Inv → s.cfg.kind = .ring → s.tail = some t0 →
    ∃ t, exec (.push x) s = .next t ∧ pushAddress s = s.head ∧
      (∀ i, t.slot i = if i = pushAddress s then x else s.slot i) ∧
      t.head = nextIndex s.cfg.mode s.head ∧
      t.tail = some (if nextIndex s.cfg.mode s.head = t0 then nextIndex s.cfg.mode t0 else t0) ∧
      t.response = some .ack ∧ t.cfg = s.cfg ∧ t.inputs = s.inputs ∧
      (s.cfg.capacity ≥ 2 → t.empty = some false) ∧
      t.length = s.length.map (fun l => min (l + 1) (s.cfg.capacity - 1)) ∧
      (t.full = some true ↔ t.length = some (s.cfg.capacity - 1)) ∧
      s.head ∉ s.liveSlots

/-- `PUSH` on a manx: R136 checked, R146 unchecked. -/
def Obligations.PushOnManx : Prop :=
  ∀ (s : State) (x : Nat), s.Inv → s.cfg.kind = .manx →
    ∃ t, exec (.push x) s = .next t ∧ pushAddress s = s.head ∧
      (∀ i, t.slot i = if i = pushAddress s then x else s.slot i) ∧
      t.head = nextIndex s.cfg.mode s.head ∧ t.tail = none ∧
      t.response = some .ack ∧ t.cfg = s.cfg ∧ t.inputs = s.inputs ∧
      t.empty = none ∧ t.full = none ∧ t.length = none

/-- `POP` on a ring: R102 checked, R122 unchecked. -/
def Obligations.PopOnRing : Prop :=
  ∀ (s : State) (t0 : Nat), s.Inv → s.cfg.kind = .ring → s.tail = some t0 →
    (t0 = s.head → exec .pop s = .next { s with response := some .popNone }) ∧
    (t0 ≠ s.head → ∃ t l, exec .pop s = .next t ∧ popAddress s = some t0 ∧
      t.response = some (.popSome t0 (s.slot t0)) ∧
      t.tail = some (nextIndex s.cfg.mode t0) ∧ t.head = s.head ∧ (∀ i, t.slot i = s.slot i) ∧
      t.cfg = s.cfg ∧ t.inputs = s.inputs ∧
      s.length = some (l + 1) ∧ t.length = some l ∧ t.full = some false ∧
      t.empty = some (nextIndex s.cfg.mode t0 == s.head))

/-- `CLEAR` on a ring: R103 checked, R123 unchecked. -/
def Obligations.ClearOnRing : Prop :=
  ∀ s : State, s.Inv → s.cfg.kind = .ring →
    ∃ t, exec .clear s = .next t ∧ t.tail = some s.head ∧ t.head = s.head ∧
      (∀ i, t.slot i = s.slot i) ∧ t.response = some .ack ∧ t.cfg = s.cfg ∧ t.inputs = s.inputs ∧
      t.empty = some true ∧ t.length = some 0 ∧ (s.cfg.capacity ≥ 2 → t.full = some false)

/-- `LEN` on a ring: R104 checked, R124 unchecked, there with `N = 2^W` and equal to the `W`-bit subtraction. -/
def Obligations.LenOnRing : Prop :=
  ∀ (s : State) (t0 : Nat), s.Inv → s.cfg.kind = .ring → s.tail = some t0 →
    ∃ l, exec .len s = .next { s with response := some (.count l) } ∧
      (∀ n, s.cfg.mode = .checked n → l = if t0 > s.head then n + s.head - t0 else s.head - t0) ∧
      (∀ w, s.cfg.mode = .unchecked w →
        (l = if t0 > s.head then 2 ^ w.bits + s.head - t0 else s.head - t0) ∧
        l = (BitVec.ofNat w.bits s.head - BitVec.ofNat w.bits t0).toNat) ∧
      (s.head = t0 → l = 0) ∧ (s.full = some true → l = s.cfg.capacity - 1) ∧ l < s.cfg.capacity ∧
      s.length = some l

/-- `ITEM i` (R88), in every configuration, with the stop the rule gives an index that names no slot. -/
def Obligations.ItemReadsOneSlot : Prop :=
  (∀ (s : State) (i : Nat),
    (i < s.cfg.capacity →
      itemAddress i = i ∧ exec (.item i) s = .next { s with response := some (.elem (s.slot i)) }) ∧
    (s.cfg.capacity ≤ i → exec (.item i) s = .refused .indexOutOfRange)) ∧
  (∀ s : State, s.Inv → ∃ t, runCommands (Assembly.itemsCommands s.cfg) s =
    some (s.items.map .elem, t)) ∧
  ∀ (c : Config) (w : Width) (cw : Nat), c.mode = .unchecked w → c.argWidth = w.bits →
    cw < 2 ^ c.wordWidth → cw % 8 = 5 → decode c cw = .command (.item (cw / 8))

/-- A manx has no consuming read (R139, R150's first sentence): `POP`, `CLEAR` and `LEN` are refused, run
directly or presented by the host. -/
def Obligations.ManxRefusesTailCommands : Prop :=
  ∀ s : State, s.cfg.kind = .manx →
    exec .pop s = .refused .unsupportedCommand ∧ exec .clear s = .refused .unsupportedCommand ∧
    exec .len s = .refused .unsupportedCommand ∧
    ∀ w rest, s.inputs = .present [w] :: rest → w < 2 ^ s.cfg.wordWidth →
      w % 8 = 2 ∨ w % 8 = 3 ∨ w % 8 = 4 → step s = .refused .unsupportedCommand

/-- The refusals of the command interface (R160, R66): exactly X1 to X4 among command words. -/
def Obligations.RefusalsOfTheInterface : Prop :=
  ∀ (s : State) (ws : List Nat) (rest : List HostEvent), s.Inv → s.inputs = .present ws :: rest →
    (∀ w ∈ ws, w < 2 ^ s.cfg.wordWidth) →
    (step s = .refused .concurrentCommands ↔ 2 ≤ ws.length) ∧
    (step s = .refused .reservedCommand ↔ ∃ w, ws = [w] ∧ (w % 8 = 6 ∨ w % 8 = 7)) ∧
    (step s = .refused .unsupportedCommand ↔
      s.cfg.kind = .manx ∧ ∃ w, ws = [w] ∧ (w % 8 = 2 ∨ w % 8 = 3 ∨ w % 8 = 4)) ∧
    (step s = .refused .indexOutOfRange ↔ ∃ w, ws = [w] ∧ w % 8 = 5 ∧ s.cfg.capacity ≤ w / 8) ∧
    ∀ r, step s = .refused r →
      r = .concurrentCommands ∨ r = .reservedCommand ∨ r = .unsupportedCommand ∨ r = .indexOutOfRange

/-- Every step that goes on answers the response its command fixes (R64), which fits the optional bit layout. -/
def Obligations.EveryCommandAnswers : Prop :=
  ∀ (s : State) (i : Instr), s.Inv → WellFormed s.cfg i = true →
    ∃ t r, exec i s = .next t ∧ t.response = some r ∧
      (match i with
        | .nop => r = .ack
        | .push _ => r = .ack
        | .clear => r = .ack
        | .pop => ∃ t0, s.tail = some t0 ∧
            r = if t0 = s.head then .popNone else .popSome t0 (s.slot t0)
        | .len => r = .count s.live.length ∧ s.live.length ≤ s.cfg.capacity - 1
        | .item j => r = .elem (s.slot j)) ∧
      (r.wires.rvalid = false ↔ r = .ack ∨ r = .popNone) ∧
      r.wires.ridx < 2 ^ s.cfg.indexWidth ∧ r.wires.rdata < 2 ^ s.cfg.dw ∧
      r.wires.rcount < 2 ^ s.cfg.indexWidth

/-! ### Whole-machine rules -/

/-- A step runs the decoded command: what the host presents is taken, decoded and executed; the idle step is
`NOP`. -/
def Obligations.StepRunsTheDecodedCommand : Prop :=
  (∀ (s : State) (w : Nat) (rest : List HostEvent) (i : Instr),
    s.inputs = .present [w] :: rest → decode s.cfg w = .command i →
    step s = exec i { s with inputs := rest }) ∧
  (∀ s : State, s.inputs = [] → step s = .next { s with response := some .ack }) ∧
  ∀ (s : State) (rest : List HostEvent), s.inputs = .present [] :: rest →
    step s = .next { s with inputs := rest, response := some .ack }

/-- Only the named events write (the `Written by` sentences of R21, R22, R23, and R35's table): `head` by reset
and `PUSH`, `tail` by reset, an evicting `PUSH`, a `POP` that finds the buffer not empty, and `CLEAR`, a slot
by reset and by the `PUSH` that finds `head` there; the parameters by nothing. -/
def Obligations.OnlyTheNamedEventsWrite : Prop :=
  ∀ s t : State, s.Inv → step s = .next t →
    t.cfg = s.cfg ∧
    (t.head ≠ s.head → Resets s ∧ t.head = 0 ∨
      (∃ x, Presents s (.push x)) ∧ t.head = nextIndex s.cfg.mode s.head) ∧
    (t.tail ≠ s.tail → Resets s ∧ t.tail = some 0 ∨
      ∃ t0, s.tail = some t0 ∧
        ((∃ x, Presents s (.push x)) ∧ nextIndex s.cfg.mode s.head = t0 ∧
            t.tail = some (nextIndex s.cfg.mode t0) ∨
          Presents s .pop ∧ t0 ≠ s.head ∧ t.tail = some (nextIndex s.cfg.mode t0) ∨
          Presents s .clear ∧ t.tail = some s.head)) ∧
    ∀ j, t.slot j ≠ s.slot j → Resets s ∧ t.slot j = s.cfg.dflt ∨
      j = s.head ∧ Presents s (.push (t.slot j))

/-- The last response is no state of the machine (R20: nothing else is state): no step reads it. -/
def Obligations.ResponseIsNeverRead : Prop :=
  ∀ (s : State) (r : Option Response), step { s with response := r } = step s

/-- Commands presented one a step run in the order presented (R12, R25, R48): the steps of the machine are the
commands' meanings one after the other, all of them complete, and each answers once. -/
def Obligations.PresentedCommandsRunInOrder : Prop :=
  ∀ (cs : List Instr) (s : State), s.Inv → (∀ i ∈ cs, WellFormed s.cfg i = true) →
    ∃ rs t, runCommands cs s = some (rs, t) ∧ rs.length = cs.length ∧ t.Inv ∧
      Sys2Proof.core.run cs.length
        ({ s with inputs := cs.map fun i => .present [encode i] } : State) =
          .next { t with inputs := [] }

/-- The empty test in any state whatever (R184): `head == tail` is read as empty, whatever the slots hold. -/
def Obligations.EqualIndicesReadAsEmpty : Prop :=
  ∀ s : State, s.cfg.kind = .ring → s.tail = some s.head →
    exec .pop s = .next { s with response := some .popNone } ∧
    exec .len s = .next { s with response := some (.count 0) } ∧ s.live = []

/-! ### Rings over many commands -/

/-- Filling (R108). -/
def Obligations.FillingFromReset : Prop :=
  ∀ (c : Config) (xs : List Nat), c.legal = true → c.kind = .ring →
    ∃ rs t, runCommands (xs.map .push) (State.initial c) = some (rs, t) ∧
      t.head = xs.length % c.capacity ∧
      (xs.length ≤ c.capacity - 1 → t.tail = some 0 ∧ t.length = some xs.length) ∧
      (xs.length = c.capacity - 1 → t.head = c.capacity - 1 ∧ t.full = some true) ∧
      (xs.length ≥ c.capacity →
        t.tail = some ((xs.length + 1) % c.capacity) ∧ t.length = some (c.capacity - 1))

/-- The wraparound boundary of an unchecked ring (R127). -/
def Obligations.UncheckedWraparoundBoundary : Prop :=
  ∀ (c : Config) (w : Width) (xs : List Nat), c.legal = true → c.kind = .ring → c.mode = .unchecked w →
    ∃ rs t, runCommands (xs.map .push) (State.initial c) = some (rs, t) ∧
      (xs.length = 2 ^ w.bits - 1 → t.head = 2 ^ w.bits - 1 ∧ t.tail = some 0 ∧
        t.length = some (2 ^ w.bits - 1) ∧ t.full = some true) ∧
      (xs.length = 2 ^ w.bits → t.head = 0 ∧ t.tail = some 1 ∧
        t.length = some (2 ^ w.bits - 1) ∧
        ∃ e u, xs[1]? = some e ∧ exec .pop t = .next u ∧ u.response = some (.popSome 1 e)) ∧
      (xs.length = 2 ^ w.bits + 1 → t.head = 1 ∧ t.tail = some 2)

/-- Overwrite-oldest (R106). -/
def Obligations.OverwriteOldest : Prop :=
  (∀ (s : State) (x : Nat), s.Inv → s.cfg.kind = .ring → s.cfg.capacity ≥ 2 → s.full = some true →
    ∃ t u j e, exec (.push x) s = .next t ∧ t.response = some .ack ∧
      t.live = s.live.drop 1 ++ [x] ∧
      exec .pop t = .next u ∧ u.response = some (.popSome j e) ∧ (s.live.drop 1 ++ [x])[0]? = some e) ∧
  ∀ (s : State) (xs : List Nat), s.Inv → s.cfg.kind = .ring → s.empty = some true →
    s.cfg.capacity - 1 ≤ xs.length →
    ∃ rs t, runCommands (xs.map .push) s = some (rs, t) ∧
      t.live = xs.drop (xs.length - (s.cfg.capacity - 1))

/-- A ring is a queue (R36): every ring command is the queue operation the rule gives, on the live sequence. -/
def Obligations.RingRefinesQueue : Prop :=
  (∀ c : Config, c.legal = true → c.kind = .ring → (State.initial c).live = []) ∧
  ∀ (s : State) (t0 : Nat), s.Inv → s.cfg.kind = .ring → s.cfg.capacity ≥ 2 → s.tail = some t0 →
    s.length = some s.live.length ∧ (adv s.cfg)^[s.live.length] t0 = s.head ∧
    (∀ x, ∃ t, exec (.push x) s = .next t ∧
      (s.live.length < s.cfg.capacity - 1 → t.live = s.live ++ [x]) ∧
      (s.live.length = s.cfg.capacity - 1 → t.live = s.live.drop 1 ++ [x])) ∧
    (∃ t, exec .pop s = .next t ∧ t.live = s.live.drop 1 ∧
      (s.live = [] → t.response = some .popNone) ∧
      ∀ e q, s.live = e :: q → t.response = some (.popSome t0 e)) ∧
    (∃ t, exec .clear s = .next t ∧ t.live = []) ∧
    (∃ t, exec .len s = .next t ∧ t.response = some (.count s.live.length) ∧ t.live = s.live) ∧
    (∃ t, exec .nop s = .next t ∧ t.live = s.live) ∧
    ∀ i, i < s.cfg.capacity → ∃ t, exec (.item i) s = .next t ∧ t.live = s.live

/-- A cleared ring behaves as a fresh one (R107): the same responses to every sequence of `PUSH`, `POP`, `CLEAR`
and `LEN`, but for the slot indices, which are offset by the `head` of the `CLEAR`. -/
def Obligations.ClearedBehavesAsFresh : Prop :=
  ∀ (s s1 : State) (cs : List Instr), s.Inv → s.cfg.kind = .ring → exec .clear s = .next s1 →
    (∀ i ∈ cs, isPush i = true ∨ i = .pop ∨ i = .clear ∨ i = .len) →
    ∃ rs t0 t1, runCommands cs (State.initial s.cfg) = some (rs, t0) ∧
      runCommands cs s1 = some (rs.map (shiftIndex s.cfg.capacity s.head), t1) ∧
      t1.head = (t0.head + s.head) % s.cfg.capacity ∧
      ∃ k, t0.tail = some k ∧ t1.tail = some ((k + s.head) % s.cfg.capacity)

/-- Round trip (R109), from any empty state, with the `POP` after the last. -/
def Obligations.PushedSequenceIsPoppedInOrder : Prop :=
  ∀ (s : State) (xs : List Nat), s.Inv → s.cfg.kind = .ring → s.empty = some true →
    xs.length ≤ s.cfg.capacity - 1 →
    ∃ t, runCommands (xs.map .push ++ List.replicate xs.length .pop ++ [.pop]) s =
      some (List.replicate xs.length .ack ++
        xs.mapIdx (fun k x => .popSome ((s.head + k) % s.cfg.capacity) x) ++ [.popNone], t)

/-- Emptiness is stable under `POP` (R110), and a fresh or cleared ring is empty. -/
def Obligations.EmptinessIsStable : Prop :=
  (∀ (s t : State) (k : Nat), exec .pop s = .next t → t.response = some .popNone →
    t = { s with response := some .popNone } ∧
    runCommands (List.replicate k .pop) t = some (List.replicate k .popNone, t)) ∧
  (∀ c : Config, c.legal = true → c.kind = .ring →
    ∃ t, exec .pop (State.initial c) = .next t ∧ t.response = some .popNone) ∧
  ∀ s t : State, s.cfg.kind = .ring → exec .clear s = .next t →
    ∃ u, exec .pop t = .next u ∧ u.response = some .popNone

/-- The degenerate capacity `N = 1` (R111). -/
def Obligations.DegenerateCapacityOne : Prop :=
  ∀ s : State, s.Inv → s.cfg.kind = .ring → s.cfg.mode = .checked 1 →
    (s.cfg.limitsEnforced = false ∨ s.cfg.lowerLimit ≤ 1) ∧
    s.head = 0 ∧ s.tail = some 0 ∧ s.empty = some true ∧ s.full = some true ∧
    (∀ x, ∃ t, exec (.push x) s = .next t ∧ t.head = 0 ∧ t.tail = some 0 ∧
      exec (.item 0) t = .next { t with response := some (.elem x) }) ∧
    exec .pop s = .next { s with response := some .popNone } ∧
    exec .len s = .next { s with response := some (.count 0) }

/-- The exact lifetime of a popped slot (R180). -/
def Obligations.PoppedSlotLifetime : Prop :=
  ∀ (s : State) (idx : Nat), s.Inv → s.cfg.kind = .ring → s.tail = some idx → idx ≠ s.head →
    1 ≤ indexDist s.cfg.capacity idx s.head ∧
    (s.full = some true → indexDist s.cfg.capacity idx s.head = 1) ∧
    (s.length = some 1 → indexDist s.cfg.capacity idx s.head = s.cfg.capacity - 1) ∧
    ∃ t, exec .pop s = .next t ∧ t.response = some (.popSome idx (s.slot idx)) ∧
      ∀ (cs : List Instr) (rs : List Response) (u : State), runCommands cs t = some (rs, u) →
        (cs.countP isPush ≤ indexDist s.cfg.capacity idx s.head → u.slot idx = s.slot idx) ∧
        ∀ x, cs.countP isPush = indexDist s.cfg.capacity idx s.head →
          u.head = idx ∧ ∃ v, exec (.push x) u = .next v ∧ v.slot idx = x

/-- The two modes agree at a power of two (R82, R128): an unchecked buffer of width `W` and a checked one of
capacity `2^W` answer every sequence of commands from reset alike and go through the same `head`, `tail` and
`buffer`; the checked one can be constructed without the limits, and for `W = 8` under the default limits. -/
def Obligations.UncheckedIsCheckedAtPowerOfTwo : Prop :=
  ∀ (c : Config) (w : Width), c.mode = .unchecked w →
    (∀ i, i < 2 ^ w.bits →
      advChk (2 ^ w.bits) i = advWrap w i ∧ advWrap w i = (i + 1) % 2 ^ w.bits) ∧
    (∀ cs : List Instr,
      runCommands cs (State.initial { c with mode := .checked (2 ^ w.bits) }) =
        (runCommands cs (State.initial c)).map
          fun out => (out.1, { out.2 with cfg := { c with mode := .checked (2 ^ w.bits) } })) ∧
    (c.isConfiguration = true → c.limitsEnforced = false →
      ({ c with mode := .checked (2 ^ w.bits) } : Config).legal = true) ∧
    (c.isConfiguration = true → w = .w8 → c.lowerLimit = 2 → c.upperLimit = 65535 →
      ({ c with mode := .checked (2 ^ w.bits) } : Config).legal = true)

/-- The wrapping counter (R89): its value after `k` increments from reset, and that the `head` of an unchecked manx
is that counter, incremented once per `PUSH`. -/
def Obligations.WrappingCounter : Prop :=
  (∀ (w : Width) (k : Nat),
    (Counter.increment^[k] (Counter.reset w)).width = w ∧
    (Counter.increment^[k] (Counter.reset w)).value = k % 2 ^ w.bits) ∧
  ∀ (c : Config) (w : Width) (xs : List Nat), c.legal = true → c.kind = .manx → c.mode = .unchecked w →
    ∃ rs t, runCommands (xs.map .push) (State.initial c) = some (rs, t) ∧
      t.head = (Counter.increment^[xs.length] (Counter.reset w)).value

/-! ### Manx buffers over many commands -/

/-- The contents of a manx after `k` pushes (R140 checked, R149 unchecked). -/
def Obligations.ManxContentsAfterPushes : Prop :=
  ∀ (c : Config) (xs : List Nat), c.legal = true → c.kind = .manx →
    ∃ rs t, runCommands (xs.map .push) (State.initial c) = some (rs, t) ∧
      t.head = xs.length % c.capacity ∧
      ∀ j, j < c.capacity →
        (xs.length ≤ j → t.slot j = c.dflt) ∧
        ∀ p, 1 ≤ p → p ≤ xs.length → (p - 1) % c.capacity = j →
          (∀ q, p < q → q ≤ xs.length → (q - 1) % c.capacity ≠ j) → xs[p - 1]? = some (t.slot j)

/-- The chronological order of a manx (R141), and that the two cases cannot be told apart: `N` pushes of the
default leave what reset left. -/
def Obligations.ManxChronologicalOrder : Prop :=
  ∀ (c : Config) (xs : List Nat), c.legal = true → c.kind = .manx →
    (∃ rs t, runCommands (xs.map .push) (State.initial c) = some (rs, t) ∧
      (c.capacity ≤ xs.length → t.chronological = xs.drop (xs.length - c.capacity)) ∧
      (xs.length < c.capacity → (List.range t.head).map t.slot = xs)) ∧
    ∃ rs, runCommands (List.replicate c.capacity (.push c.dflt)) (State.initial c) =
      some (rs, { State.initial c with response := some .ack })

/-- `items()` (R137): the whole array in storage order, obtained slot by slot, changing nothing. -/
def Obligations.ItemsAreTheWholeArray : Prop :=
  (∀ s : State, s.Inv →
    s.items.length = s.cfg.capacity ∧ (∀ i, i < s.cfg.capacity → s.items[i]? = some (s.slot i)) ∧
    ∃ t, runCommands (Assembly.itemsCommands s.cfg) s = some (s.items.map .elem, t) ∧
      t = { s with response := t.response }) ∧
  ∀ c : Config, c.legal = true → (State.initial c).items = List.replicate c.capacity c.dflt
end

