-- ==== Sys2Proof/Laws/Word.lean ====
section
/-! SUPPORT. A value of so many bits is a number below a power of two. -/

namespace Sys2Proof

@[simp] theorem isBits_iff {n v : Nat} : isBits n v = true ↔ v < 2 ^ n := by simp [isBits]

end Sys2Proof
end

