-- ==== Sys2Proof/Laws/Index.lean ====
section
/-! SUPPORT. The advance as an increment modulo the capacity, the widths, and the range of the distance. -/

namespace Sys2Proof

/-- A number of `n` values fits in `ceilLog2 n` bits. -/
theorem le_two_pow_ceilLog2 (n : Nat) : n ≤ 2 ^ ceilLog2 n := by
  unfold ceilLog2
  by_cases h : n ≤ 1
  · simp [h]
  · rw [if_neg h]
    have : n - 1 < 2 ^ (Nat.log2 (n - 1) + 1) := Nat.lt_log2_self
    omega

/-- Every index fits in `IW` bits (R5, D9). -/
theorem capacity_le_two_pow_indexWidth (c : Config) : c.capacity ≤ 2 ^ c.indexWidth := by
  unfold Config.capacity Config.indexWidth
  cases c.mode with
  | checked n =>
    exact (le_two_pow_ceilLog2 n).trans (Nat.pow_le_pow_right (by omega) (le_max_right _ _))
  | unchecked w => exact le_rfl

/-- An index fits in the operand field (R61). -/
theorem capacity_le_two_pow_argWidth (c : Config) : c.capacity ≤ 2 ^ c.argWidth :=
  (capacity_le_two_pow_indexWidth c).trans
    (Nat.pow_le_pow_right (by omega) (le_max_right _ _))

/-- An element fits in the operand field (R61). -/
theorem two_pow_dw_le_argWidth (c : Config) : 2 ^ c.dw ≤ 2 ^ c.argWidth :=
  Nat.pow_le_pow_right (by omega) (le_max_left _ _)

theorem Config.isConfiguration_of_legal {c : Config} (h : c.legal = true) :
    c.isConfiguration = true := by
  simp only [Config.legal, Bool.and_eq_true] at h; exact h.1

theorem Config.isConfiguration_iff (c : Config) :
    c.isConfiguration = true ↔ 1 ≤ c.capacity ∧ 1 ≤ c.dw ∧ c.dflt < 2 ^ c.dw := by
  simp [Config.isConfiguration, and_assoc]

theorem Config.capacity_pos_of_legal {c : Config} (h : c.legal = true) : 0 < c.capacity :=
  (c.isConfiguration_iff.1 (Config.isConfiguration_of_legal h)).1

theorem Config.dflt_lt_of_legal {c : Config} (h : c.legal = true) : c.dflt < 2 ^ c.dw :=
  (c.isConfiguration_iff.1 (Config.isConfiguration_of_legal h)).2.2

namespace Machine

theorem advChk_eq_mod {n i : Nat} (h : i < n) : advChk n i = (i + 1) % n := by
  unfold advChk
  split
  · have : i + 1 = n := by omega
    simp [this]
  · rw [Nat.mod_eq_of_lt (by omega)]

theorem advWrap_eq_mod (w : Width) (i : Nat) : advWrap w i = (i + 1) % 2 ^ w.bits := by
  rw [advWrap, BitVec.toNat_add, BitVec.toNat_ofNat, BitVec.toNat_ofNat, ← Nat.add_mod]

/-- Both modes advance by one modulo the capacity (R83). -/
theorem adv_eq_mod {c : Config} {i : Nat} (h : i < c.capacity) :
    adv c i = (i + 1) % c.capacity := by
  unfold adv Config.capacity at *
  cases hm : c.mode with
  | checked n => simp only [hm] at h ⊢; exact advChk_eq_mod h
  | unchecked w => exact advWrap_eq_mod w i

/-- The same without a remainder, the form `omega` can use. -/
theorem adv_eq_ite {c : Config} {i : Nat} (h : i < c.capacity) :
    adv c i = if i + 1 = c.capacity then 0 else i + 1 := by
  rw [adv_eq_mod h]
  split
  · simp [*]
  · exact Nat.mod_eq_of_lt (by omega)

theorem adv_lt {c : Config} {i : Nat} (h : i < c.capacity) : adv c i < c.capacity := by
  rw [adv_eq_mod h]; exact Nat.mod_lt _ (by omega)

/-- The live count of indices in range is below the capacity (R31). -/
theorem indexDist_lt {n h t : Nat} (hh : h < n) (ht : t < n) : indexDist n h t < n := by
  unfold indexDist; split <;> omega

end Machine
end Sys2Proof
end

