-- ==== Sys2Proof/Laws/Memory.lean ====
section
/-! SUPPORT. The laws of the backing array: a read after a write, the canonical form, and that equal
contents are equal lists. -/

namespace Sys2Proof.Machine.Memory

variable {d : Nat} {m : Memory} {a b lo n dw : Nat} {v : Nat}

@[simp] theorem read_nil : Memory.read d [] a = d := rfl

theorem wfFrom_cons {u : Nat} :
    wfFrom d lo ((b, u) :: m) = true ↔ lo ≤ b ∧ u ≠ d ∧ wfFrom d (b + 1) m = true := by
  simp [wfFrom, and_assoc]

theorem wfFrom_mono {lo' : Nat} (h : lo' ≤ lo) (hm : wfFrom d lo m = true) :
    wfFrom d lo' m = true := by
  cases m with
  | nil => rfl
  | cons cell m => obtain ⟨b, u⟩ := cell; rw [wfFrom_cons] at *; exact ⟨h.trans hm.1, hm.2⟩

/-- Below the first slot the form allows, everything reads as the default. -/
theorem read_below (hm : wfFrom d lo m = true) (h : a < lo) : Memory.read d m a = d := by
  induction m generalizing lo with
  | nil => rfl
  | cons cell m ih =>
    obtain ⟨b, u⟩ := cell
    rw [wfFrom_cons] at hm
    rw [Memory.read, if_neg (by omega)]
    exact ih hm.2.2 (by omega)

theorem read_write_same (hm : wfFrom d lo m = true) :
    Memory.read d (Memory.write d m a v) a = v := by
  induction m generalizing lo with
  | nil => by_cases h : v = d <;> simp [Memory.write, Memory.read, h]
  | cons cell m ih =>
    obtain ⟨b, u⟩ := cell
    have hm' := wfFrom_cons.1 hm
    unfold Memory.write
    split_ifs with h1 h2 h3 h4
    · rw [h2, Memory.read, if_neg (by omega), read_below hm'.2.2 (by omega)]
    · simp [Memory.read]
    · rw [h4, read_below hm'.2.2 (by omega)]
    · simp [Memory.read]
    · rw [Memory.read, if_neg h3]; exact ih hm'.2.2

theorem read_write_other (h : b ≠ a) :
    Memory.read d (Memory.write d m a v) b = Memory.read d m b := by
  induction m with
  | nil => by_cases hv : v = d <;> simp [Memory.write, Memory.read, hv, h]
  | cons cell m ih =>
    obtain ⟨k, u⟩ := cell
    unfold Memory.write
    split_ifs with h1 h2 h3 h4
    · rfl
    · simp [Memory.read, h]
    · rw [Memory.read, if_neg (by omega)]
    · subst h3; simp [Memory.read, h]
    · by_cases hk : b = k <;> simp [Memory.read, hk] at ih ⊢
      rw [ih]

/-- A write keeps the canonical form. -/
theorem write_wfFrom (hm : wfFrom d lo m = true) (ha : lo ≤ a) :
    wfFrom d lo (Memory.write d m a v) = true := by
  induction m generalizing lo with
  | nil => by_cases hv : v = d <;> simp [Memory.write, wfFrom, hv, ha]
  | cons cell m ih =>
    obtain ⟨b, u⟩ := cell
    have hm' := wfFrom_cons.1 hm
    unfold Memory.write
    split_ifs with h1 h2 h3 h4
    · exact hm
    · exact wfFrom_cons.2 ⟨ha, h2, wfFrom_cons.2 ⟨by omega, hm'.2⟩⟩
    · exact wfFrom_mono (by omega) hm'.2.2
    · subst h3; exact wfFrom_cons.2 ⟨ha, h4, hm'.2.2⟩
    · exact wfFrom_cons.2 ⟨hm'.1, hm'.2.1, ih hm'.2.2 (by omega)⟩

theorem write_wf (hm : wf d m = true) : wf d (Memory.write d m a v) = true :=
  write_wfFrom hm (Nat.zero_le _)

theorem fits_cons {u : Nat} :
    fits n dw ((b, u) :: m) = true ↔ (b < n ∧ u < 2 ^ dw) ∧ fits n dw m = true := by
  simp [fits]

/-- A write of an element in range to a slot in range keeps the array in range. -/
theorem write_fits (hm : fits n dw m = true) (ha : a < n) (hv : v < 2 ^ dw) :
    fits n dw (Memory.write d m a v) = true := by
  induction m with
  | nil => by_cases h : v = d <;> simp [Memory.write, fits, h, ha, hv]
  | cons cell m ih =>
    obtain ⟨b, u⟩ := cell
    have hm' := fits_cons.1 hm
    unfold Memory.write
    split_ifs with h1 h2 h3 h4
    · exact hm
    · exact fits_cons.2 ⟨⟨ha, hv⟩, hm⟩
    · exact hm'.2
    · exact fits_cons.2 ⟨⟨ha, hv⟩, hm'.2⟩
    · exact fits_cons.2 ⟨hm'.1, ih hm'.2⟩

/-- What an array in range holds has `DW` bits. -/
theorem read_lt (hm : fits n dw m = true) (hd : d < 2 ^ dw) : Memory.read d m a < 2 ^ dw := by
  induction m with
  | nil => exact hd
  | cons cell m ih =>
    obtain ⟨b, u⟩ := cell
    have hm' := fits_cons.1 hm
    unfold Memory.read
    split
    · exact hm'.1.2
    · exact ih hm'.2

/-- Beyond the last slot everything reads as the default. -/
theorem read_beyond (hm : fits n dw m = true) (ha : n ≤ a) : Memory.read d m a = d := by
  induction m with
  | nil => rfl
  | cons cell m ih =>
    obtain ⟨b, u⟩ := cell
    have hm' := fits_cons.1 hm
    rw [Memory.read, if_neg (by omega)]
    exact ih hm'.2

/-- Equal contents are equal data: two arrays in canonical form that read alike are the same list. -/
theorem eq_of_read_eq {m' : Memory} (hm : wfFrom d lo m = true) (hm' : wfFrom d lo m' = true)
    (h : ∀ a, Memory.read d m a = Memory.read d m' a) : m = m' := by
  induction m generalizing lo m' with
  | nil =>
    cases m' with
    | nil => rfl
    | cons cell m' =>
      obtain ⟨b, u⟩ := cell
      have := h b
      simp [Memory.read] at this
      exact absurd this.symm (wfFrom_cons.1 hm').2.1
  | cons cell m ih =>
    obtain ⟨b, u⟩ := cell
    have hw := wfFrom_cons.1 hm
    cases m' with
    | nil =>
      have := h b
      simp [Memory.read] at this
      exact absurd this hw.2.1
    | cons cell' m' =>
      obtain ⟨b', u'⟩ := cell'
      have hw' := wfFrom_cons.1 hm'
      have hb : b = b' := by
        rcases Nat.lt_trichotomy b b' with hlt | heq | hgt
        · have := h b
          rw [Memory.read, if_pos rfl, Memory.read, if_neg (by omega),
            read_below hw'.2.2 (by omega)] at this
          exact absurd this hw.2.1
        · exact heq
        · have := h b'
          rw [Memory.read, if_neg (by omega), read_below hw.2.2 (by omega), Memory.read,
            if_pos rfl] at this
          exact absurd this.symm hw'.2.1
      subst hb
      have hu : u = u' := by simpa [Memory.read] using h b
      subst hu
      congr 1
      refine ih hw.2.2 hw'.2.2 fun a => ?_
      by_cases ha : a = b
      · subst ha
        rw [read_below hw.2.2 (by omega), read_below hw'.2.2 (by omega)]
      · simpa [Memory.read, ha] using h a

end Sys2Proof.Machine.Memory
end

