-- ==== Sys2Proof/Laws/State.lean ====
section
/-! SUPPORT. One lemma per field per update of the state, so that no proof unfolds a record update. -/

namespace Sys2Proof.Machine.State

variable (s : State) (v : Nat) (r : Response) (w : Nat) (c : Config)

@[simp] theorem setHead_cfg : (s.setHead v).cfg = s.cfg := rfl
@[simp] theorem setHead_head : (s.setHead v).head = v := rfl
@[simp] theorem setHead_tail : (s.setHead v).tail = s.tail := rfl
@[simp] theorem setHead_buffer : (s.setHead v).buffer = s.buffer := rfl
@[simp] theorem setHead_inputs : (s.setHead v).inputs = s.inputs := rfl
@[simp] theorem setHead_response : (s.setHead v).response = s.response := rfl

@[simp] theorem setTail_cfg : (s.setTail v).cfg = s.cfg := rfl
@[simp] theorem setTail_head : (s.setTail v).head = s.head := rfl
@[simp] theorem setTail_tail : (s.setTail v).tail = some v := rfl
@[simp] theorem setTail_buffer : (s.setTail v).buffer = s.buffer := rfl
@[simp] theorem setTail_inputs : (s.setTail v).inputs = s.inputs := rfl
@[simp] theorem setTail_response : (s.setTail v).response = s.response := rfl

@[simp] theorem respond_cfg : (s.respond r).cfg = s.cfg := rfl
@[simp] theorem respond_head : (s.respond r).head = s.head := rfl
@[simp] theorem respond_tail : (s.respond r).tail = s.tail := rfl
@[simp] theorem respond_buffer : (s.respond r).buffer = s.buffer := rfl
@[simp] theorem respond_inputs : (s.respond r).inputs = s.inputs := rfl
@[simp] theorem respond_response : (s.respond r).response = some r := rfl

@[simp] theorem advanceHead_cfg : s.advanceHead.cfg = s.cfg := rfl
@[simp] theorem advanceHead_head : s.advanceHead.head = adv s.cfg s.head := rfl
@[simp] theorem advanceHead_tail : s.advanceHead.tail = s.tail := rfl
@[simp] theorem advanceHead_buffer : s.advanceHead.buffer = s.buffer := rfl
@[simp] theorem advanceHead_inputs : s.advanceHead.inputs = s.inputs := rfl
@[simp] theorem advanceHead_response : s.advanceHead.response = s.response := rfl

@[simp] theorem present_cfg : (s.present w).cfg = s.cfg := rfl
@[simp] theorem present_head : (s.present w).head = s.head := rfl
@[simp] theorem present_tail : (s.present w).tail = s.tail := rfl
@[simp] theorem present_buffer : (s.present w).buffer = s.buffer := rfl
@[simp] theorem present_inputs : (s.present w).inputs = .present [w] :: s.inputs := rfl
@[simp] theorem present_response : (s.present w).response = s.response := rfl

@[simp] theorem initial_cfg : (State.initial c).cfg = c := rfl
@[simp] theorem initial_head : (State.initial c).head = 0 := rfl
@[simp] theorem initial_buffer : (State.initial c).buffer = [] := rfl
@[simp] theorem initial_inputs : (State.initial c).inputs = [] := rfl
@[simp] theorem initial_response : (State.initial c).response = none := rfl
theorem initial_tail_ring (h : c.kind = .ring) : (State.initial c).tail = some 0 := by
  simp [State.initial, h]
theorem initial_tail_manx (h : c.kind = .manx) : (State.initial c).tail = none := by
  simp [State.initial, h]

theorem ringTail_ring (h : s.cfg.kind = .ring) : s.ringTail = s.tail := by simp [ringTail, h]
theorem ringTail_manx (h : s.cfg.kind = .manx) : s.ringTail = none := by simp [ringTail, h]

/-- Two states with the same parameters and tail field show the commands the same tail. -/
theorem ringTail_congr {s t : State} (hc : t.cfg = s.cfg) (ht : t.tail = s.tail) :
    t.ringTail = s.ringTail := by simp [ringTail, hc, ht]

/-- A slot depends on the parameters and the backing array alone. -/
theorem slot_congr {s t : State} (hc : t.cfg = s.cfg) (hb : t.buffer = s.buffer) :
    t.slot = s.slot := by funext i; simp [slot, hc, hb]

@[simp] theorem setHead_ringTail : (s.setHead v).ringTail = s.ringTail := rfl
@[simp] theorem respond_ringTail : (s.respond r).ringTail = s.ringTail := rfl
@[simp] theorem advanceHead_ringTail : s.advanceHead.ringTail = s.ringTail := rfl
@[simp] theorem setHead_slot : (s.setHead v).slot = s.slot := rfl
@[simp] theorem setTail_slot : (s.setTail v).slot = s.slot := rfl
@[simp] theorem respond_slot : (s.respond r).slot = s.slot := rfl
@[simp] theorem advanceHead_slot : s.advanceHead.slot = s.slot := rfl

/-- What the eviction test can do: the tail advances, or nothing happens. -/
theorem chaseTail_cases :
    (∃ t, s.ringTail = some t ∧ s.head = t ∧ s.chaseTail = s.setTail (adv s.cfg t)) ∨
      (∀ t, s.ringTail = some t → s.head ≠ t) ∧ s.chaseTail = s := by
  unfold chaseTail
  cases h : s.ringTail with
  | none => right; simp
  | some t =>
    by_cases e : s.head = t
    · left; exact ⟨t, rfl, e, by simp [e]⟩
    · right; simp [e]

@[simp] theorem chaseTail_cfg : s.chaseTail.cfg = s.cfg := by
  rcases s.chaseTail_cases with ⟨t, -, -, e⟩ | ⟨-, e⟩ <;> (rw [e]; try rfl)
@[simp] theorem chaseTail_head : s.chaseTail.head = s.head := by
  rcases s.chaseTail_cases with ⟨t, -, -, e⟩ | ⟨-, e⟩ <;> (rw [e]; try rfl)
@[simp] theorem chaseTail_buffer : s.chaseTail.buffer = s.buffer := by
  rcases s.chaseTail_cases with ⟨t, -, -, e⟩ | ⟨-, e⟩ <;> (rw [e]; try rfl)
@[simp] theorem chaseTail_inputs : s.chaseTail.inputs = s.inputs := by
  rcases s.chaseTail_cases with ⟨t, -, -, e⟩ | ⟨-, e⟩ <;> (rw [e]; try rfl)
@[simp] theorem chaseTail_response : s.chaseTail.response = s.response := by
  rcases s.chaseTail_cases with ⟨t, -, -, e⟩ | ⟨-, e⟩ <;> (rw [e]; try rfl)
@[simp] theorem chaseTail_slot : s.chaseTail.slot = s.slot :=
  slot_congr s.chaseTail_cfg s.chaseTail_buffer

/-- The tail after the eviction test, in a ring. -/
theorem chaseTail_tail_ring {t : Nat} (hk : s.cfg.kind = .ring) (ht : s.tail = some t) :
    s.chaseTail.tail = some (if s.head = t then adv s.cfg t else t) := by
  unfold chaseTail
  rw [ringTail_ring s hk, ht]
  by_cases e : s.head = t <;> simp [e, ht]

/-- A manx has no tail to chase. -/
theorem chaseTail_manx (hk : s.cfg.kind = .manx) : s.chaseTail = s := by
  simp [chaseTail, ringTail_manx s hk]

end Sys2Proof.Machine.State
end

