-- ==== Sys2Proof/Laws/Exec.lean ====
section
/-! SUPPORT. What each shared operation and each meaning can do, said once: the equation where it goes on,
and the inversion of an answer `next t`. -/

namespace Sys2Proof.Machine

variable {s t : State} {i x : Nat}

@[simp] theorem andThen_next (f : State → Result) : andThen (.next s) f = f s := rfl
@[simp] theorem andThen_fault (e : Fault) (f : State → Result) : andThen (.fault e) f = .fault e := rfl
@[simp] theorem andThen_refused (e : Refusal) (f : State → Result) :
    andThen (.refused e) f = .refused e := rfl

theorem andThen_eq_next {r : Result} {f : State → Result} (h : andThen r f = .next t) :
    ∃ s, r = .next s ∧ f s = .next t := by
  cases r with
  | next s => exact ⟨s, rfl, h⟩
  | fault e => cases h
  | refused e => cases h

theorem memRead_of_lt {k : Nat → Result} (h : i < s.cfg.capacity) :
    memRead i s k = k (s.slot i) := by simp [memRead, h]

theorem memRead_eq_next {k : Nat → Result} (h : memRead i s k = .next t) :
    i < s.cfg.capacity ∧ k (s.slot i) = .next t := by
  unfold memRead at h; split at h
  · exact ⟨‹_›, h⟩
  · cases h

theorem memWrite_of_lt (h : i < s.cfg.capacity) :
    memWrite i x s = .next { s with buffer := Memory.write s.cfg.dflt s.buffer i x } := by
  simp [memWrite, h]

theorem memWrite_eq_next (h : memWrite i x s = .next t) :
    i < s.cfg.capacity ∧ t = { s with buffer := Memory.write s.cfg.dflt s.buffer i x } := by
  unfold memWrite at h; split at h
  · cases h; exact ⟨‹_›, rfl⟩
  · cases h

/-- The state after `PUSH x` (R90). -/
def State.pushed (s : State) (x : Nat) : State :=
  ({ s with buffer := Memory.write s.cfg.dflt s.buffer s.head x } : State).advanceHead.chaseTail.respond .ack

theorem execPush_of_lt (h : s.head < s.cfg.capacity) : execPush x s = .next (s.pushed x) := by
  simp [execPush, pushAddress, memWrite_of_lt h, State.pushed]

theorem execPush_eq_next (h : execPush x s = .next t) :
    s.head < s.cfg.capacity ∧ t = s.pushed x := by
  obtain ⟨u, hu, h⟩ := andThen_eq_next h
  obtain ⟨hlt, rfl⟩ := memWrite_eq_next hu
  cases h; exact ⟨hlt, rfl⟩

@[simp] theorem State.pushed_cfg : (s.pushed x).cfg = s.cfg := by simp [State.pushed]
@[simp] theorem State.pushed_head : (s.pushed x).head = adv s.cfg s.head := by simp [State.pushed]
@[simp] theorem State.pushed_inputs : (s.pushed x).inputs = s.inputs := by simp [State.pushed]
@[simp] theorem State.pushed_response : (s.pushed x).response = some .ack := by simp [State.pushed]
@[simp] theorem State.pushed_buffer :
    (s.pushed x).buffer = Memory.write s.cfg.dflt s.buffer s.head x := by simp [State.pushed]

theorem State.pushed_tail_ring {t0 : Nat} (hk : s.cfg.kind = .ring) (ht : s.tail = some t0) :
    (s.pushed x).tail = some (if adv s.cfg s.head = t0 then adv s.cfg t0 else t0) :=
  State.chaseTail_tail_ring
    (State.advanceHead { s with buffer := Memory.write s.cfg.dflt s.buffer s.head x }) hk ht

theorem State.pushed_tail_manx (hk : s.cfg.kind = .manx) :
    (s.pushed x).tail = s.tail := by
  have h := congrArg State.tail (State.chaseTail_manx
    (State.advanceHead { s with buffer := Memory.write s.cfg.dflt s.buffer s.head x }) hk)
  exact h

theorem State.pushed_slot (hm : Memory.wf s.cfg.dflt s.buffer = true) (i : Nat) :
    (s.pushed x).slot i = if i = s.head then x else s.slot i := by
  unfold State.slot
  rw [State.pushed_buffer, State.pushed_cfg]
  split
  · subst i; exact Memory.read_write_same hm
  · exact Memory.read_write_other ‹_›

/-- The tail a `POP`, `CLEAR` or `LEN` reads exists in a ring alone. -/
theorem State.ringTail_eq_some {t0 : Nat} :
    s.ringTail = some t0 ↔ s.cfg.kind = .ring ∧ s.tail = some t0 := by
  unfold State.ringTail; cases s.cfg.kind <;> simp

theorem execPop_empty (h : s.ringTail = some s.head) : execPop s = .next (s.respond .popNone) := by
  simp [execPop, popAddress, h]

theorem execPop_some {t0 : Nat} (h : s.ringTail = some t0) (hne : t0 ≠ s.head)
    (hlt : t0 < s.cfg.capacity) :
    execPop s = .next ((s.setTail (adv s.cfg t0)).respond (.popSome t0 (s.slot t0))) := by
  simp [execPop, popAddress, h, hne, memRead_of_lt hlt]

theorem execPop_eq_next (h : execPop s = .next t) :
    (s.ringTail = some s.head ∧ t = s.respond .popNone) ∨
      ∃ t0, s.ringTail = some t0 ∧ t0 ≠ s.head ∧ t0 < s.cfg.capacity ∧
        t = (s.setTail (adv s.cfg t0)).respond (.popSome t0 (s.slot t0)) := by
  unfold execPop popAddress at h
  cases ht : s.ringTail with
  | none => simp [ht] at h
  | some t0 =>
    simp only [ht] at h
    by_cases hne : t0 = s.head
    · subst hne; left; simp at h; exact ⟨rfl, h.symm⟩
    · right
      rw [if_pos hne] at h
      obtain ⟨hlt, h⟩ := memRead_eq_next h
      cases h; exact ⟨t0, rfl, hne, hlt, rfl⟩

theorem execClear_of_some {t0 : Nat} (h : s.ringTail = some t0) :
    execClear s = .next ((s.setTail s.head).respond .ack) := by simp [execClear, h]

theorem execClear_eq_next (h : execClear s = .next t) :
    (∃ t0, s.ringTail = some t0) ∧ t = (s.setTail s.head).respond .ack := by
  unfold execClear at h
  cases ht : s.ringTail with
  | none => simp [ht] at h
  | some t0 => simp only [ht] at h; cases h; exact ⟨⟨t0, rfl⟩, rfl⟩

theorem execLen_of_some {t0 : Nat} (h : s.ringTail = some t0) :
    execLen s = .next (s.respond (.count (indexDist s.cfg.capacity s.head t0))) := by simp [execLen, h]

theorem execLen_eq_next (h : execLen s = .next t) :
    ∃ t0, s.ringTail = some t0 ∧ t = s.respond (.count (indexDist s.cfg.capacity s.head t0)) := by
  unfold execLen at h
  cases ht : s.ringTail with
  | none => simp [ht] at h
  | some t0 => simp only [ht] at h; cases h; exact ⟨t0, rfl, rfl⟩

theorem execItem_of_lt (h : i < s.cfg.capacity) :
    execItem i s = .next (s.respond (.elem (s.slot i))) := by
  simp [execItem, itemAddress, memRead_of_lt h, Nat.not_le.2 h]

theorem execItem_of_ge (h : s.cfg.capacity ≤ i) : execItem i s = .refused .indexOutOfRange := by
  simp [execItem, h]

theorem execItem_eq_next (h : execItem i s = .next t) :
    i < s.cfg.capacity ∧ t = s.respond (.elem (s.slot i)) := by
  by_cases hlt : i < s.cfg.capacity
  · rw [execItem_of_lt hlt] at h; cases h; exact ⟨hlt, rfl⟩
  · rw [execItem_of_ge (Nat.not_lt.1 hlt)] at h; cases h

/-- A command that goes on leaves the parameters and the host's coming presentations alone. -/
theorem exec_keeps_cfg_inputs {c : Instr} (h : exec c s = .next t) :
    t.cfg = s.cfg ∧ t.inputs = s.inputs := by
  cases c with
  | nop => cases h; exact ⟨rfl, rfl⟩
  | push x => obtain ⟨-, rfl⟩ := execPush_eq_next h; simp
  | pop => rcases execPop_eq_next h with ⟨-, rfl⟩ | ⟨t0, -, -, -, rfl⟩ <;> exact ⟨rfl, rfl⟩
  | clear => obtain ⟨-, rfl⟩ := execClear_eq_next h; exact ⟨rfl, rfl⟩
  | len => obtain ⟨t0, -, rfl⟩ := execLen_eq_next h; exact ⟨rfl, rfl⟩
  | item i => obtain ⟨-, rfl⟩ := execItem_eq_next h; exact ⟨rfl, rfl⟩

end Sys2Proof.Machine
end

