-- ==== Sys2Proof/Laws/Step.lean ====
section
/-! SUPPORT. What a step can do: run one command, or construct the instance again. -/

namespace Sys2Proof.Machine

variable {s t : State}

theorem resetEvent_of_legal (h : s.cfg.legal = true) :
    resetEvent s = .next { State.initial s.cfg with inputs := s.inputs } := by
  simp only [Config.legal, Bool.and_eq_true, Bool.not_eq_true'] at h
  simp [resetEvent, h.1, h.2]

theorem resetEvent_eq_next (h : resetEvent s = .next t) :
    s.cfg.legal = true ∧ t = { State.initial s.cfg with inputs := s.inputs } := by
  unfold resetEvent at h
  split_ifs at h with h1 h2
  · cases h; exact ⟨by simp [Config.legal, h1, h2], rfl⟩

theorem new_of_legal {c : Config} (h : c.legal = true) : State.new c = some (State.initial c) := by
  simp [State.new, h]

/-- The three things a presentation can come to. -/
theorem fetch_run_cases {c : Instr} {u : State} (h : fetch s = .run c u) :
    (s.inputs = [] ∧ c = .nop ∧ u = s) ∨
      (∃ rest, s.inputs = .present [] :: rest ∧ c = .nop ∧ u = { s with inputs := rest }) ∨
      ∃ w rest, s.inputs = .present [w] :: rest ∧ decode s.cfg w = .command c ∧
        u = { s with inputs := rest } := by
  unfold fetch at h
  match hi : s.inputs with
  | [] => rw [hi] at h; cases h; exact .inl ⟨rfl, rfl, rfl⟩
  | .reset :: rest => rw [hi] at h; cases h
  | .present [] :: rest => rw [hi] at h; cases h; exact .inr (.inl ⟨rest, rfl, rfl, rfl⟩)
  | .present [w] :: rest =>
    rw [hi] at h
    simp only [fetchWords, fetchWord] at h
    cases hd : decode s.cfg w <;> simp only [hd] at h <;> cases h
    exact .inr (.inr ⟨w, rest, rfl, hd, rfl⟩)
  | .present (_ :: _ :: _) :: rest => rw [hi] at h; cases h

theorem fetch_reset_cases {u : State} (h : fetch s = .reset u) :
    ∃ rest, s.inputs = .reset :: rest ∧ u = { s with inputs := rest } := by
  unfold fetch at h
  match hi : s.inputs with
  | [] => rw [hi] at h; cases h
  | .reset :: rest => rw [hi] at h; cases h; exact ⟨rest, rfl, rfl⟩
  | .present [] :: rest => rw [hi] at h; cases h
  | .present [w] :: rest =>
    rw [hi] at h
    simp only [fetchWords, fetchWord] at h
    cases hd : decode s.cfg w <;> simp only [hd] at h <;> cases h
  | .present (_ :: _ :: _) :: rest => rw [hi] at h; cases h

/-- A step that goes on ran one command or was a reset. -/
theorem step_eq_next (h : step s = .next t) :
    (∃ c u, fetch s = .run c u ∧ exec c u = .next t) ∨
      ∃ u, fetch s = .reset u ∧ resetEvent u = .next t := by
  unfold step at h
  match hf : fetch s with
  | .run c u => rw [hf] at h; exact .inl ⟨c, u, rfl, h⟩
  | .reset u => rw [hf] at h; exact .inr ⟨u, rfl, h⟩
  | .refuse r => rw [hf] at h; cases h

/-- A step with one word presented that decodes to a command is that command. -/
theorem fetch_of_decode {w : Nat} {rest : List HostEvent} {c : Instr}
    (hi : s.inputs = .present [w] :: rest) (hd : decode s.cfg w = .command c) :
    fetch s = .run c { s with inputs := rest } := by
  simp [fetch, hi, fetchWords, fetchWord, hd]

end Sys2Proof.Machine
end

