-- ==== Sys2Proof/Laws/Inv.lean ====
section
/-! SUPPORT. What the invariant says of each part of the state, and the part of it that every command keeps whatever
element it pushes: statements over sequences of commands need no more than that part. -/

namespace Sys2Proof.Machine

variable {s t : State} {c : Instr}

theorem State.tail_of_inRange_ring (h : s.tailInRange = true) (hk : s.cfg.kind = .ring) :
    ∃ t0, s.tail = some t0 ∧ t0 < s.cfg.capacity := by
  rw [State.tailInRange, hk] at h
  cases ht : s.tail with
  | none => simp [ht] at h
  | some t0 => exact ⟨t0, rfl, by simpa [ht] using h⟩

theorem State.tail_of_inRange_manx (h : s.tailInRange = true) (hk : s.cfg.kind = .manx) : s.tail = none := by
  rw [State.tailInRange, hk] at h
  cases ht : s.tail with
  | none => rfl
  | some t0 => simp [ht] at h

theorem State.tailInRange_ring {t0 : Nat} (hk : s.cfg.kind = .ring) (ht : s.tail = some t0)
    (h : t0 < s.cfg.capacity) : s.tailInRange = true := by simp [State.tailInRange, hk, ht, h]

theorem State.tailInRange_manx (hk : s.cfg.kind = .manx) (ht : s.tail = none) : s.tailInRange = true := by
  simp [State.tailInRange, hk, ht]

theorem State.Inv.capacity_pos (h : s.Inv) : 0 < s.cfg.capacity := Config.capacity_pos_of_legal h.1

theorem State.Inv.slot_lt (h : s.Inv) (i : Nat) : s.slot i < 2 ^ s.cfg.dw :=
  Memory.read_lt h.2.2.2.2.1 (Config.dflt_lt_of_legal h.1)

/-- The tail a ring's commands see, from the invariant. -/
theorem State.Inv.ringTail_ring (h : s.Inv) (hk : s.cfg.kind = .ring) :
    ∃ t0, s.ringTail = some t0 ∧ s.tail = some t0 ∧ t0 < s.cfg.capacity := by
  obtain ⟨t0, ht, hlt⟩ := s.tail_of_inRange_ring h.2.2.1 hk
  exact ⟨t0, State.ringTail_eq_some.2 ⟨hk, ht⟩, ht, hlt⟩

/-- The indices in range and the backing array canonical: no condition on the elements. -/
structure State.Sound (s : State) : Prop where
  head : s.head < s.cfg.capacity
  tail : s.tailInRange = true
  canonical : Memory.wf s.cfg.dflt s.buffer = true

theorem State.Inv.sound (h : s.Inv) : s.Sound := ⟨h.2.1, h.2.2.1, h.2.2.2.1⟩

theorem State.Sound.pushed (h : s.Sound) (x : Nat) : (s.pushed x).Sound := by
  refine ⟨by simpa using adv_lt h.head, ?_, by simpa using Memory.write_wf h.canonical⟩
  cases hk : s.cfg.kind with
  | ring =>
    obtain ⟨t0, ht, hlt⟩ := s.tail_of_inRange_ring h.tail hk
    refine State.tailInRange_ring (by simpa using hk) (State.pushed_tail_ring hk ht) ?_
    rw [State.pushed_cfg]
    split
    · exact adv_lt hlt
    · exact hlt
  | manx =>
    exact State.tailInRange_manx (by simpa using hk)
      ((State.pushed_tail_manx hk).trans (s.tail_of_inRange_manx h.tail hk))

/-- Every command keeps the sound part of the invariant. -/
theorem State.Sound.exec (h : s.Sound) (he : Sys2Proof.Machine.exec c s = .next t) : t.Sound := by
  cases c with
  | nop => cases he; exact ⟨h.head, h.tail, h.canonical⟩
  | push x => obtain ⟨-, rfl⟩ := execPush_eq_next he; exact h.pushed x
  | pop =>
    rcases execPop_eq_next he with ⟨-, rfl⟩ | ⟨t0, ht, -, hlt, rfl⟩
    · exact ⟨h.head, h.tail, h.canonical⟩
    · exact ⟨h.head, State.tailInRange_ring (State.ringTail_eq_some.1 ht).1 rfl (adv_lt hlt), h.canonical⟩
  | clear =>
    obtain ⟨⟨t0, ht⟩, rfl⟩ := execClear_eq_next he
    exact ⟨h.head, State.tailInRange_ring (State.ringTail_eq_some.1 ht).1 rfl h.head, h.canonical⟩
  | len => obtain ⟨t0, -, rfl⟩ := execLen_eq_next he; exact ⟨h.head, h.tail, h.canonical⟩
  | item j => obtain ⟨-, rfl⟩ := execItem_eq_next he; exact ⟨h.head, h.tail, h.canonical⟩

end Sys2Proof.Machine
end

