-- ==== Sys2Proof/Laws/PerInstr.lean ====
section
/-! SUPPORT. Statements about every command as syntax, one lemma per constructor. -/

/-- The family FieldsOfTheWord: an admitted command's operand fits the operand field, and the two fields of its
word are its code and its operand (R61, R62, R63). -/
def Sys2Proof.Laws.FieldsOfTheWord.Statement (i : Sys2Proof.Instr) : Prop :=
  ∀ c : Sys2Proof.Config, Sys2Proof.WellFormed c i = true →
    Sys2Proof.argOf i < 2 ^ c.argWidth ∧ Sys2Proof.opField (Sys2Proof.encode i) = Sys2Proof.opOf i ∧
      Sys2Proof.argField c (Sys2Proof.encode i) = Sys2Proof.argOf i

namespace Sys2Proof.Laws.FieldsOfTheWord

/-- The fields of `arg * 8 + op`. -/
theorem fields_of_number {c : Config} {arg op : Nat} (ha : arg < 2 ^ c.argWidth) (ho : op < 8) :
    opField (arg * 8 + op) = op ∧ argField c (arg * 8 + op) = arg := by
  unfold opField argField
  constructor
  · omega
  · rw [show (arg * 8 + op) / 8 = arg by omega, Nat.mod_eq_of_lt ha]

theorem statement_of_arg_lt {i : Instr}
    (h : ∀ c, WellFormed c i = true → argOf i < 2 ^ c.argWidth) : Statement i := fun c hw =>
  ⟨h c hw, fields_of_number (h c hw) (by cases i <;> simp [opOf])⟩

theorem nop : Statement .nop := statement_of_arg_lt fun _ _ => Nat.two_pow_pos _

theorem push (item : Nat) : Statement (.push item) := statement_of_arg_lt fun c h =>
  (isBits_iff.1 h).trans_le (two_pow_dw_le_argWidth c)

theorem pop : Statement .pop := statement_of_arg_lt fun _ _ => Nat.two_pow_pos _

theorem clear : Statement .clear := statement_of_arg_lt fun _ _ => Nat.two_pow_pos _

theorem len : Statement .len := statement_of_arg_lt fun _ _ => Nat.two_pow_pos _

theorem item (i : Nat) : Statement (.item i) := statement_of_arg_lt fun c h =>
  (of_decide_eq_true h).trans_le (capacity_le_two_pow_argWidth c)

end Sys2Proof.Laws.FieldsOfTheWord
end

