-- ==== Sys2Proof/Laws/Runs.lean ====
section
/-! SUPPORT. The observations of Machine/Observe.lean and Machine/Flags.lean in the terms proofs use: status values of
a ring by its tail, live slots by their numbers, sequences of commands one command at a time. -/

namespace Sys2Proof.Machine

variable {s t : State} {t0 : Nat}

theorem State.empty_ring (hk : s.cfg.kind = .ring) (ht : s.tail = some t0) : s.empty = some (s.head == t0) := by
  simp [State.empty, State.ringTail_ring _ hk, ht]

theorem State.full_ring (hk : s.cfg.kind = .ring) (ht : s.tail = some t0) :
    s.full = some (adv s.cfg s.head == t0) := by simp [State.full, State.ringTail_ring _ hk, ht]

theorem State.length_ring (hk : s.cfg.kind = .ring) (ht : s.tail = some t0) :
    s.length = some (indexDist s.cfg.capacity s.head t0) := by
  simp [State.length, State.ringTail_ring _ hk, ht]

theorem slotsFrom_eq_map {c : Config} {i : Nat} (l : Nat) (h : i < c.capacity) :
    slotsFrom c i l = (List.range l).map fun k => (i + k) % c.capacity := by
  induction l generalizing i with
  | zero => rfl
  | succ l ih =>
    rw [slotsFrom, ih (adv_lt h), List.range_succ_eq_map, List.map_cons, List.map_map]
    congr 1
    · simp [Nat.mod_eq_of_lt h]
    · apply List.map_congr_left; intro k _; simp [adv_eq_mod h]; congr 1; omega

theorem State.live_ring (hk : s.cfg.kind = .ring) (ht : s.tail = some t0) (hlt : t0 < s.cfg.capacity) :
    s.live = (List.range (indexDist s.cfg.capacity s.head t0)).map
      fun k => s.slot ((t0 + k) % s.cfg.capacity) := by
  have h : s.liveSlots = slotsFrom s.cfg t0 (indexDist s.cfg.capacity s.head t0) := by
    simp [State.liveSlots, State.ringTail_ring _ hk, ht]
  rw [State.live, h, slotsFrom_eq_map _ hlt, List.map_map]
  rfl

theorem runCommands_cons {i : Instr} {is : List Instr} (h : exec i s = .next t) :
    runCommands (i :: is) s = (runCommands is t).map fun out => (t.response.toList ++ out.1, out.2) := by
  simp [runCommands, h]

theorem runCommands_append (is js : List Instr) (s : State) :
    runCommands (is ++ js) s =
      (runCommands is s).bind fun o => (runCommands js o.2).map fun p => (o.1 ++ p.1, p.2) := by
  induction is generalizing s with
  | nil => simp [runCommands]
  | cons i is ih =>
    simp only [List.cons_append, runCommands]
    cases exec i s with
    | next t =>
      simp only [ih]
      cases runCommands is t <;> simp [Function.comp_def]
    | fault f => rfl
    | refused f => rfl

end Sys2Proof.Machine
end

