-- ==== Sys2Proof/Tests/Slice0.lean ====
section
/-! SUPPORT. The model's own tests, their expected results taken from 95_test_vectors.md (the section stands in each
docstring), and for every statement with hypotheses a witness that meets them. -/

namespace Sys2Proof.Machine.Tests

open Sys2Proof.Claims

/-! ### Small states -/

/-- `CR N=10 DW=8`. -/
def cr10 : Config := .cr 10 8

/-- `CM N=10 DW=8`. -/
def cm10 : Config := .cm 10 8

/-- `CR N=1 DW=8 LIMITS_ENFORCED=false`. -/
def cr1 : Config := { Config.cr 1 8 with limitsEnforced := false }

/-- A ring with these indices and slots. -/
def ring (c : Config) (h t : Nat) (m : Memory := []) : State :=
  { State.initial c with head := h, tail := some t, buffer := m }

/-- A manx with this head and these slots. -/
def manx (c : Config) (h : Nat) (m : Memory := []) : State := { State.initial c with head := h, buffer := m }

/-- The full ring of 95_test_vectors.md S6 after its fifteen pushes. -/
def full10 : State :=
  ring cr10 5 6 [(0, 10), (1, 11), (2, 12), (3, 13), (4, 14), (5, 5), (6, 6), (7, 7), (8, 8), (9, 9)]

/-- The step goes on, to a state with the property. -/
def goesOn (r : Result) (p : State → Bool) : Bool :=
  match r with
  | .next t => p t
  | _ => false

/-- The step is refused for this reason. -/
def refusedFor (r : Result) (e : Refusal) : Bool :=
  match r with
  | .refused x => decide (x = e)
  | _ => false

/-- The step fails in construction. -/
def failsToConstruct (r : Result) : Bool :=
  match r with
  | .fault x => decide (x = .capacityOutOfBounds)
  | _ => false

/-! ### Well-formedness and construction: what each check refuses -/

theorem test_push_too_wide_is_refused : WellFormed cr10 (.push 256) = false := by decide
theorem test_item_beyond_the_slots_is_refused : WellFormed cr10 (.item 10) = false := by decide
theorem test_pop_on_manx_is_refused : WellFormed cm10 .pop = false := by decide
theorem test_clear_on_manx_is_refused : WellFormed cm10 .clear = false := by decide
theorem test_len_on_manx_is_refused : WellFormed cm10 .len = false := by decide
theorem test_wide_default_is_no_configuration : Config.isConfiguration { cr10 with dflt := 256 } = false := by
  decide
theorem test_no_bits_is_no_configuration : Config.isConfiguration (.cr 10 0) = false := by decide

/-- Section 2.9. -/
theorem test_construction_legality :
    (Config.cr 0 8).legal = false ∧ Config.legal { Config.cr 0 8 with limitsEnforced := false } = false ∧
    (Config.cr 1 8).legal = false ∧ (Config.cr 2 8).legal = true ∧ (Config.cr 65535 8).legal = true ∧
    (Config.cr 65536 8).legal = false ∧ (Config.cm 1 8).legal = false ∧ (Config.cm 65536 8).legal = false ∧
    cr1.legal = true ∧ Config.legal { Config.cr 65536 8 with limitsEnforced := false } = true ∧
    Config.legal { Config.cr 5 8 with lowerLimit := 8, upperLimit := 4 } = false ∧
    (Config.ur .w8 8).legal = true ∧ (Config.ur .w16 8).legal = true ∧ (Config.um .w8 8).legal = true ∧
    (Config.um .w16 8).legal = true := by decide

/-- The index widths named in sections 2.8 and 2.9. -/
theorem test_index_widths :
    (Config.cr 300 4).indexWidth = 9 ∧ (Config.cr 300 4).wordWidth = 12 ∧ (Config.cr 65535 8).indexWidth = 16 ∧
    (Config.cr 65536 8).indexWidth = 16 ∧ (Config.cr 100000 8).indexWidth = 17 ∧ (Config.cr 4 8).indexWidth = 2 ∧
    (Config.um .w8 16).wordWidth = 19 := by decide

/-! ### Decoding: a word written out from R61 for every constructor (operand bits, then `op`) -/

theorem test_decode_nop : decode cr10 0b00000000000 = .command .nop := by decide
theorem test_decode_push : decode cr10 0b01101101001 = .command (.push 109) := by decide
theorem test_decode_pop : decode cr10 0b10101011010 = .command .pop := by decide
theorem test_decode_clear : decode cr10 0b00000000011 = .command .clear := by decide
theorem test_decode_len : decode cr10 0b00000000100 = .command .len := by decide
theorem test_decode_item : decode cr10 0b00001001101 = .command (.item 9) := by decide

/-- Section 2.8, the words that are no command. -/
theorem test_decode_verdicts :
    decode cr10 0x055 = .outOfRange ∧ decode cr10 0x7FD = .outOfRange ∧ decode cr10 0x006 = .reserved ∧
    decode cr10 0x007 = .reserved ∧ decode cm10 0x002 = .unsupported ∧ decode cm10 0x003 = .unsupported ∧
    decode cm10 0x004 = .unsupported ∧ decode (.um .w8 8) 0x002 = .unsupported ∧
    decode (.ur .w8 8) 0x7FD = .command (.item 255) ∧ decode (.ur .w8 16) 0x00805 = .outOfRange ∧
    decode cr10 0x800 = .notAWord := by decide

theorem test_decodeTableWord :
    decodeTableWord 8 0 = some .nop ∧ decodeTableWord 8 1 = some (.push 0) ∧ decodeTableWord 8 2 = some .pop ∧
    decodeTableWord 8 3 = some .clear ∧ decodeTableWord 8 4 = some .len ∧
    decodeTableWord 8 5 = some (.item 0) ∧ decodeTableWord 8 6 = none := by decide

theorem test_withFetchWord_runs_the_command :
    goesOn (step (State.reset.withFetchWord 8 0b01001001)) (fun t => t.head == 1 && t.slot 0 == 9) = true := by
  decide

/-! ### Index arithmetic -/

/-- Section 2.1. -/
theorem test_advChk :
    advChk 1 0 = 0 ∧ advChk 2 1 = 0 ∧ advChk 10 8 = 9 ∧ advChk 10 9 = 0 ∧ advChk 65535 65533 = 65534 ∧
    advChk 65535 65534 = 0 ∧ advChk 10 12 = 0 := by decide

/-- Section 2.2. -/
theorem test_advWrap :
    advWrap .w8 0x7F = 0x80 ∧ advWrap .w8 0xFF = 0x00 ∧ advWrap .w16 0x00FF = 0x0100 ∧
    advWrap .w16 0xFFFF = 0x0000 := by decide

/-- Section 2.3. -/
theorem test_status_values :
    ((ring cr10 3 7).length, (ring cr10 3 7).empty, (ring cr10 3 7).full) =
      (some 6, some false, some false) ∧
    ((ring cr10 5 6).length, (ring cr10 5 6).empty, (ring cr10 5 6).full) = (some 9, some false, some true) ∧
    ((ring cr1 0 0).length, (ring cr1 0 0).empty, (ring cr1 0 0).full) = (some 0, some true, some true) ∧
    (ring (.ur .w8 8) 1 254).length = some 3 ∧ (ring (.ur .w16 8) 0 1).length = some 65535 ∧
    (ring (.ur .w16 8) 0 65535).length = some 1 ∧ (manx cm10 4).length = none := by decide

/-! ### One step of each command, from the word to the next state -/

/-- Section 2.8, the first rows; section 2.4, the row of `NOP`. -/
theorem test_nop_ignores_its_operand :
    goesOn (step (full10.present 0x7F8)) (fun t => decide (t = full10.respond .ack)) = true := by decide

/-- Section 2.5: the 256th push of an unchecked ring (90_conflicts.md C1). -/
theorem test_push_wraps_and_evicts :
    goesOn (step ((ring (.ur .w8 8) 255 0).present 0x049)) (fun t =>
      t.head == 0 && t.tail == some 1 && t.slot 255 == 9 && t.response == some .ack) = true := by decide

/-- Section 2.6: the `N`-th push of a manx. -/
theorem test_push_on_manx_wraps :
    goesOn (step ((manx cm10 9).present 0x009)) (fun t =>
      t.head == 0 && t.tail == none && t.slot 9 == 1 && t.slot 0 == 0) = true := by decide

/-- Section 2.4: `tail` wraps. -/
theorem test_pop_wraps :
    goesOn (step ((ring cr10 3 9 [(9, 42)]).present 0x002)) (fun t =>
      t.head == 3 && t.tail == some 0 && t.slot 9 == 42 && t.response == some (.popSome 9 42)) = true := by
  decide

/-- Section 2.4: empty, not at 0. -/
theorem test_pop_on_empty :
    goesOn (step ((ring cr10 6 6).present 0x002)) (fun t =>
      decide (t = (ring cr10 6 6).respond .popNone)) = true := by decide

/-- Section 2.10: `CLEAR` keeps the storage. -/
theorem test_clear_keeps_head_and_slots :
    goesOn (step ((ring (.cr 4 8) 1 2 [(0, 5), (1, 2), (2, 3), (3, 4)]).present 0x003)) (fun t =>
      t.head == 1 && t.tail == some 1 && t.items == [5, 2, 3, 4]) = true := by decide

/-- Section 2.4. -/
theorem test_len_past_the_wrap :
    goesOn (step ((ring cr10 3 7).present 0x004)) (fun t => t.response == some (.count 6)) = true := by decide

/-- Section 2.4: the stale slot at `head`. -/
theorem test_item_reads_a_stale_slot :
    goesOn (step (full10.present 0x02D)) (fun t => decide (t = full10.respond (.elem 5))) = true := by decide

/-- Section 2.6, after three pushes: a slot never written. -/
theorem test_item_reads_the_default :
    goesOn (step ((manx cm10 3 [(0, 1), (1, 2), (2, 3)]).present 0x01D)) (fun t =>
      t.response == some (.elem 0)) = true := by decide

/-- Section 2.10: `NEW` with `DEFAULT = 9`, and unlike `CLEAR` the storage is filled again. -/
theorem test_reset_event_refills :
    goesOn (step { ring { Config.cr 4 8 with dflt := 9 } 1 2 [(0, 5), (1, 2)] with inputs := [.reset] })
      (fun t => t.head == 0 && t.tail == some 0 && t.items == [9, 9, 9, 9]) = true := by decide

/-- Section 2.8: X1 to X4, and that two commands at once are refused before either is decoded. -/
theorem test_refusals :
    refusedFor (step (full10.present 0x006)) .reservedCommand = true ∧
    refusedFor (step ((manx cm10 0).present 0x002)) .unsupportedCommand = true ∧
    refusedFor (step (full10.present 0x055)) .indexOutOfRange = true ∧
    refusedFor (step { full10 with inputs := [.present [0x006, 0x002]] }) .concurrentCommands = true := by decide

/-- Section 2.9: an illegal capacity. -/
theorem test_illegal_capacity_fails :
    failsToConstruct (step { State.initial (.cm 65536 8) with inputs := [.reset] }) = true := by decide

/-! ### Assembly (R69, R73) -/

theorem test_assembly_push :
    Assembly.assembleLine cr10 ['P', 'U', 'S', 'H', ' ', '0', 'x', '6', 'D', ' ', ';', ' ', '1'] =
      some [.present [0x369]] := by decide
theorem test_assembly_refuses_out_of_range :
    Assembly.assembleLine cr10 ['I', 'T', 'E', 'M', ' ', '1', '0'] = none ∧
    Assembly.assembleLine cm10 ['P', 'O', 'P'] = none := by decide
theorem test_assembly_pseudo :
    Assembly.assembleLine (.cr 3 8) ['I', 'T', 'E', 'M', 'S'] =
      some [.present [0x005], .present [0x00D], .present [0x015]] ∧
    Assembly.assembleLine cr10 ['N', 'E', 'W'] = some [.reset] ∧ Assembly.assembleLine cr10 [';'] = some [] := by
  decide
theorem test_assembly_rep :
    Assembly.rep 3 (fun i => [Assembly.command (.push i)]) = [.present [1], .present [9], .present [17]] := by
  decide

/-! ### Witnesses: concrete values that meet the hypotheses of each statement, every clause at a boundary -/

theorem witness_DecodeEncodeRoundTrip :
    WellFormed cr10 .nop = true ∧ WellFormed cr10 (.push 255) = true ∧ WellFormed cr10 .pop = true ∧
    WellFormed cr10 .clear = true ∧ WellFormed cr10 .len = true ∧ WellFormed cr10 (.item 9) = true ∧
    WellFormed cm10 (.item 0) = true ∧ decode cr10 0x55A = .command .pop := by decide

/-- The largest word of each operation code, and the two indices where the clause of `ITEM` divides. -/
theorem witness_DecodeFollowsTheCaseTable :
    ∀ w ∈ [0x7F8, 0x7F9, 0x7FA, 0x7FB, 0x7FC, 0x7FD, 0x7FE, 0x7FF, 0x04D, 0x055],
      w < 2 ^ (3 + max cr10.dw cr10.indexWidth) := by decide

/-- Ignored bits zero, and one of them set: the most significant, and for `PUSH` the least significant ignored one. -/
theorem witness_EncodeDecodeIffIgnoredBitsZero :
    decode cr10 0x000 = .command .nop ∧ decode cr10 0x400 = .command .nop ∧
    decode (.cr 300 4) 0x079 = .command (.push 15) ∧ decode (.cr 300 4) 0x081 = .command (.push 0) := by decide

theorem witness_LegalConfigurations :
    1 ≤ cr10.dw ∧ cr10.dflt < 2 ^ cr10.dw ∧
    (∀ n ∈ [0, 1, 2, 65535, 65536], (Config.cr n 8).mode = .checked n ∧ (Config.cr n 8).limitsEnforced = true ∧
      1 ≤ (Config.cr n 8).dw ∧ (Config.cr n 8).dflt < 2 ^ (Config.cr n 8).dw) ∧
    cr1.mode = .checked 1 ∧ cr1.limitsEnforced = false ∧ (Config.um .w16 8).mode = .unchecked .w16 ∧
    (Config.ur .w8 8).mode = .unchecked .w8 ∧ cr10.legal = true ∧ (Config.cr 1 8).legal = false := by decide

theorem witness_ResetValues :
    (Config.cr 2 8).legal = true ∧ (Config.cr 2 8).kind = .ring ∧ (Config.cr 2 8).capacity ≥ 2 ∧
    cr1.legal = true ∧ cr1.kind = .ring ∧ cr1.capacity = 1 ∧ cm10.legal = true ∧ cm10.kind = .manx ∧
    9 < cm10.capacity := by decide

theorem witness_ResetEventConstructsAgain :
    ({ full10 with inputs := [.reset] } : State).inputs = .reset :: [] ∧ cr10.legal = true ∧ cm10.legal = true ∧
    (Config.cr 1 8).mode = .checked 1 ∧ (Config.cr 1 8).limitsEnforced = true ∧ 1 < (Config.cr 1 8).lowerLimit ∧
    (Config.cr 65536 8).mode = .checked 65536 ∧ (Config.cr 65536 8).upperLimit < 65536 := by decide

theorem witness_OnlyConstructionFails :
    Resets { full10 with inputs := [.reset] } ∧ (Config.cr 1 8).isConfiguration = true ∧
    (Config.cr 2 8).isConfiguration = true ∧ (Config.um .w16 8).isConfiguration = true :=
  ⟨⟨[], rfl⟩, by decide⟩

theorem witness_ResetEstablishesInv : (Config.cr 2 8).legal = true ∧ (Config.um .w16 8).legal = true := by decide

theorem witness_StepKeepsInv :
    full10.Inv ∧ (manx cm10 9).Inv ∧ ∃ t, step (full10.present 0x369) = .next t :=
  ⟨by decide, by decide, _, rfl⟩

theorem witness_StepFromInvNeverFaults : full10.Inv ∧ (manx cm10 9).Inv := by decide

theorem witness_EveryRunKeepsIndicesInRange :
    (Config.cr 2 8).legal = true ∧ (Config.cr 2 8).kind = .ring ∧
    ∃ t : State, Sys2Proof.core.run 2
      ({ State.initial (.cr 2 8) with inputs := [.present [0x009], .reset] } : State) = .next t :=
  ⟨by decide, by decide, _, rfl⟩

theorem witness_OccupancyBelowCapacity :
    full10.Inv ∧ cr10.kind = .ring ∧ cr10.capacity ≥ 2 ∧ (ring cr1 0 0).Inv ∧ cr1.kind = .ring := by decide

theorem witness_FullAndLength :
    (manx cm10 9).Inv ∧ cm10.kind = .manx ∧ full10.Inv ∧ cr10.kind = .ring ∧ full10.tail = some 6 ∧
    cr10.capacity ≥ 2 ∧ (ring cr1 0 0).Inv ∧ (ring cr1 0 0).tail = some 0 ∧ cr10.legal = true ∧
    cr1.legal = true := by decide

/-- A push into an empty ring, the pop of the last element, a clear, and the reset state. -/
theorem witness_EmptyAndItsChanges :
    (ring cr10 6 6).Inv ∧ (ring cr10 6 6).tail = some 6 ∧ (ring cr10 6 6).empty = some true ∧
    (∃ t, exec (.push 5) (ring cr10 6 6) = .next t ∧ t.empty = some false) ∧
    (ring cr10 0 9).Inv ∧ (ring cr10 0 9).empty = some false ∧ (ring cr10 0 9).length = some 1 ∧
    (∃ t, exec .pop (ring cr10 0 9) = .next t ∧ t.empty = some true) ∧
    (∃ t, exec .clear full10 = .next t ∧ t.empty = some true) ∧ cr10.legal = true ∧ cr10.kind = .ring :=
  ⟨by decide, rfl, by decide, ⟨_, rfl, by decide⟩, by decide, by decide, by decide, ⟨_, rfl, by decide⟩,
    ⟨_, rfl, by decide⟩, by decide, rfl⟩

theorem witness_AdvanceFormulas : 0 < 1 ∧ 9 < 10 ∧ 10 ≤ 10 := by decide

theorem witness_AdvanceIsOneCycle :
    cr10.mode = .checked 10 ∧ 9 < cr10.capacity ∧ 0 < cr1.capacity ∧ (Config.ur .w8 8).mode = .unchecked .w8 ∧
    255 < (Config.ur .w8 8).capacity := by decide

theorem witness_RepeatedAdvance : 9 < cr10.capacity ∧ cr10.legal = true ∧ (Config.um .w16 8).legal = true := by
  decide

/-- Full, empty, one more and one less. -/
theorem witness_DistanceLaws :
    0 < cr10.capacity ∧ 9 < cr10.capacity ∧ adv cr10 9 = 0 ∧ adv cr10 9 ≠ 1 ∧ 9 ≠ 0 ∧
    (Config.ur .w16 8).mode = .unchecked .w16 ∧ 65535 < (Config.ur .w16 8).capacity := by decide

theorem witness_MemReadAndMemWrite : full10.Inv ∧ 9 < full10.cfg.capacity := by decide

theorem witness_NopChangesNothing : 0x7F8 < 2 ^ cr10.wordWidth ∧ 0x7F8 % 8 = 0 := by decide

/-- With and without an eviction, checked and unchecked, and the degenerate capacity. -/
theorem witness_PushOnRing :
    full10.Inv ∧ cr10.kind = .ring ∧ full10.tail = some 6 ∧ full10.cfg.capacity ≥ 2 ∧
    (ring (.ur .w8 8) 255 7).Inv ∧ (ring (.ur .w8 8) 255 7).tail = some 7 ∧ (ring cr1 0 0).Inv ∧
    (ring cr1 0 0).tail = some 0 := by decide

theorem witness_PushOnManx :
    (manx cm10 9).Inv ∧ cm10.kind = .manx ∧ (manx (.um .w8 8) 255).Inv ∧ (manx (.um .w8 8) 255).cfg.kind = .manx := by
  decide

theorem witness_PopOnRing :
    (ring cr10 6 6).Inv ∧ (ring cr10 6 6).tail = some 6 ∧ 6 = (ring cr10 6 6).head ∧
    (ring cr10 0 9).Inv ∧ (ring cr10 0 9).tail = some 9 ∧ 9 ≠ (ring cr10 0 9).head ∧
    (ring (.ur .w8 8) 1 255).Inv ∧ (ring (.ur .w8 8) 1 255).tail = some 255 ∧ cr10.kind = .ring := by decide

theorem witness_ClearOnRing :
    full10.Inv ∧ cr10.kind = .ring ∧ full10.cfg.capacity ≥ 2 ∧ (ring cr1 0 0).Inv ∧ cr1.kind = .ring := by decide

theorem witness_LenOnRing :
    full10.Inv ∧ full10.tail = some 6 ∧ cr10.mode = .checked 10 ∧ full10.full = some true ∧ (ring cr10 6 6).Inv ∧
    (ring cr10 6 6).tail = some 6 ∧ (ring (.ur .w16 8) 0 65535).Inv ∧
    (ring (.ur .w16 8) 0 65535).cfg.mode = .unchecked .w16 ∧ cr10.kind = .ring := by decide

theorem witness_ItemReadsOneSlot :
    9 < full10.cfg.capacity ∧ full10.cfg.capacity ≤ 10 ∧ full10.Inv ∧ (Config.ur .w8 8).mode = .unchecked .w8 ∧
    (Config.ur .w8 8).argWidth = Width.w8.bits ∧ 0x7FD < 2 ^ (Config.ur .w8 8).wordWidth ∧ 0x7FD % 8 = 5 := by
  decide

theorem witness_ManxRefusesTailCommands :
    ((manx cm10 4).present 0x7FA).cfg.kind = .manx ∧ ((manx cm10 4).present 0x7FA).inputs = .present [0x7FA] :: [] ∧
    0x7FA < 2 ^ cm10.wordWidth ∧ 0x7FA % 8 = 2 ∧ 0x003 % 8 = 3 ∧ 0x004 % 8 = 4 := by decide

theorem witness_RefusalsOfTheInterface :
    ({ full10 with inputs := [.present [0x006, 0x002]] } : State).Inv ∧
    (∀ w ∈ [0x006, 0x007, 0x002, 0x003, 0x004, 0x055, 0x7FF], w < 2 ^ cr10.wordWidth) ∧
    step (full10.present 0x006) = .refused .reservedCommand ∧
    step ((manx cm10 0).present 0x002) = .refused .unsupportedCommand ∧
    step (full10.present 0x055) = .refused .indexOutOfRange ∧
    step { full10 with inputs := [.present [0x006, 0x002]] } = .refused .concurrentCommands :=
  ⟨by decide, by decide, rfl, rfl, rfl, rfl⟩

theorem witness_EveryCommandAnswers :
    full10.Inv ∧ (manx cm10 9).Inv ∧
    (∀ i ∈ [.nop, .push 255, .pop, .clear, .len, .item 9], WellFormed cr10 i = true) ∧
    ∀ i ∈ [.nop, .push 255, .item 9], WellFormed cm10 i = true := by decide

theorem witness_StepRunsTheDecodedCommand :
    (full10.present 0x369).inputs = .present [0x369] :: [] ∧
    decode (full10.present 0x369).cfg 0x369 = .command (.push 109) ∧ full10.inputs = [] ∧
    ({ full10 with inputs := [.present []] } : State).inputs = .present [] :: [] := by decide

/-- A step that changes `head`, `tail` and a slot; a pop and a clear that change `tail`; the reset event. -/
theorem witness_OnlyTheNamedEventsWrite :
    (full10.present 0x369).Inv ∧ Presents (full10.present 0x369) (.push 109) ∧
    (∃ t, step (full10.present 0x369) = .next t ∧ t.head ≠ full10.head ∧ t.tail ≠ full10.tail ∧
      t.slot 5 ≠ full10.slot 5) ∧
    (∃ t, step (full10.present 0x002) = .next t ∧ t.tail ≠ full10.tail) ∧
    (∃ t, step (full10.present 0x003) = .next t ∧ t.tail ≠ full10.tail) ∧
    ∃ t, step { full10 with inputs := [.reset] } = .next t ∧ t.head ≠ full10.head ∧ t.slot 0 ≠ full10.slot 0 :=
  ⟨by decide, ⟨0x369, [], rfl, by decide⟩, ⟨_, rfl, by decide, by decide, by decide⟩, ⟨_, rfl, by decide⟩,
    ⟨_, rfl, by decide⟩, ⟨_, rfl, by decide, by decide⟩⟩

theorem witness_PresentedCommandsRunInOrder :
    full10.Inv ∧ ∀ i ∈ [.push 0, .pop, .item 9], WellFormed full10.cfg i = true := by decide

theorem witness_EqualIndicesReadAsEmpty :
    (ring cr10 6 6 [(0, 1)]).cfg.kind = .ring ∧
    (ring cr10 6 6 [(0, 1)]).tail = some (ring cr10 6 6 [(0, 1)]).head := by decide

/-- At `k = N - 1` and at `k = N`. -/
theorem witness_FillingFromReset :
    (Config.cr 3 8).legal = true ∧ (Config.cr 3 8).kind = .ring ∧
    [1, 2].length = (Config.cr 3 8).capacity - 1 ∧ [1, 2, 3].length ≥ (Config.cr 3 8).capacity := by decide

theorem witness_UncheckedWraparoundBoundary :
    (Config.ur .w8 8).legal = true ∧ (Config.ur .w8 8).kind = .ring ∧ (Config.ur .w8 8).mode = .unchecked .w8 ∧
    (List.replicate 255 1).length = 2 ^ Width.w8.bits - 1 ∧ (List.replicate 256 1).length = 2 ^ Width.w8.bits ∧
    (List.replicate 257 1).length = 2 ^ Width.w8.bits + 1 :=
  ⟨by decide, rfl, rfl, List.length_replicate, List.length_replicate, List.length_replicate⟩

theorem witness_OverwriteOldest :
    full10.Inv ∧ cr10.kind = .ring ∧ full10.cfg.capacity ≥ 2 ∧ full10.full = some true ∧ (ring (.cr 3 8) 2 2).Inv ∧
    (ring (.cr 3 8) 2 2).empty = some true ∧ (ring (.cr 3 8) 2 2).cfg.capacity - 1 ≤ [1, 2].length := by decide

/-- A full ring and an empty one. -/
theorem witness_RingRefinesQueue :
    full10.Inv ∧ cr10.kind = .ring ∧ full10.cfg.capacity ≥ 2 ∧ full10.tail = some 6 ∧ cr10.legal = true ∧
    full10.live.length = full10.cfg.capacity - 1 ∧ (ring cr10 6 6).Inv ∧ (ring cr10 6 6).live = [] ∧
    9 < full10.cfg.capacity := by decide

theorem witness_ClearedBehavesAsFresh :
    full10.Inv ∧ full10.cfg.kind = .ring ∧ (∃ t, exec .clear full10 = .next t) ∧
    ∀ i ∈ [.push 1, .pop, .clear, .len], isPush i = true ∨ i = .pop ∨ i = .clear ∨ i = .len :=
  ⟨by decide, rfl, ⟨_, rfl⟩, by decide⟩

theorem witness_PushedSequenceIsPoppedInOrder :
    (ring (.cr 3 8) 2 2).Inv ∧ (ring (.cr 3 8) 2 2).cfg.kind = .ring ∧ (ring (.cr 3 8) 2 2).empty = some true ∧
    [7, 7].length ≤ (ring (.cr 3 8) 2 2).cfg.capacity - 1 := by decide

theorem witness_EmptinessIsStable :
    (∃ t, exec .pop (ring cr10 6 6) = .next t ∧ t.response = some .popNone) ∧ cr10.legal = true ∧
    cr10.kind = .ring ∧ full10.cfg.kind = .ring ∧ ∃ t, exec .clear full10 = .next t :=
  ⟨⟨_, rfl, rfl⟩, by decide, rfl, rfl, _, rfl⟩

theorem witness_DegenerateCapacityOne :
    (ring cr1 0 0).Inv ∧ (ring cr1 0 0).cfg.kind = .ring ∧ (ring cr1 0 0).cfg.mode = .checked 1 := by decide

/-- The two extremes: a full ring, and one live element. -/
theorem witness_PoppedSlotLifetime :
    full10.Inv ∧ cr10.kind = .ring ∧ full10.tail = some 6 ∧ 6 ≠ full10.head ∧ full10.full = some true ∧
    (ring cr10 0 9).Inv ∧ (ring cr10 0 9).tail = some 9 ∧ 9 ≠ (ring cr10 0 9).head ∧
    (ring cr10 0 9).length = some 1 ∧
    (∃ t rs u, exec .pop full10 = .next t ∧ runCommands [.push 1, .nop] t = some (rs, u) ∧
      [Instr.push 1, .nop].countP isPush = indexDist 10 6 5) :=
  ⟨by decide, rfl, rfl, by decide, by decide, by decide, rfl, by decide, by decide, _, _, _, rfl, rfl, by decide⟩

theorem witness_UncheckedIsCheckedAtPowerOfTwo :
    (Config.ur .w8 8).mode = .unchecked .w8 ∧ 255 < 2 ^ Width.w8.bits ∧ (Config.ur .w8 8).isConfiguration = true ∧
    Config.limitsEnforced { Config.um .w16 8 with limitsEnforced := false } = false ∧
    Config.isConfiguration { Config.um .w16 8 with limitsEnforced := false } = true ∧
    (Config.ur .w8 8).lowerLimit = 2 ∧ (Config.ur .w8 8).upperLimit = 65535 := by decide

/-- Slot 1 before it is written, and slot 0 written twice. -/
theorem witness_ManxContentsAfterPushes :
    (Config.cm 2 8).legal = true ∧ (Config.cm 2 8).kind = .manx ∧ 1 < (Config.cm 2 8).capacity ∧ [7].length ≤ 1 ∧
    3 ≤ [7, 8, 9].length ∧ (3 - 1) % (Config.cm 2 8).capacity = 0 := by decide

theorem witness_ManxChronologicalOrder :
    (Config.cm 2 8).legal = true ∧ (Config.cm 2 8).kind = .manx ∧ (Config.cm 2 8).capacity ≤ [7, 8].length ∧
    [7].length < (Config.cm 2 8).capacity := by decide

theorem witness_ItemsAreTheWholeArray : full10.Inv ∧ 9 < full10.cfg.capacity ∧ cm10.legal = true := by decide

theorem witness_WrappingCounter :
    (Config.um .w8 8).legal = true ∧ (Config.um .w8 8).kind = .manx ∧ (Config.um .w8 8).mode = .unchecked .w8 := by
  decide

end Sys2Proof.Machine.Tests
end

section
/-! SUPPORT. Which configurations are legal (R6, R7), one lemma per mode, and construction exactly there. -/

namespace Sys2Proof

variable {c : Config} {n : Nat} {w : Width}

theorem Config.capacity_checked (h : c.mode = .checked n) : c.capacity = n := by
  simp [Config.capacity, h]

theorem Config.capacity_unchecked (h : c.mode = .unchecked w) : c.capacity = 2 ^ w.bits := by
  simp [Config.capacity, h]

theorem Config.legal_iff :
    c.legal = true ↔ c.isConfiguration = true ∧ c.capacityOutOfBounds = false := by
  simp [Config.legal]

/-- Without the limits no capacity is out of bounds; with them exactly those outside the interval (R156). -/
theorem Config.capacityOutOfBounds_checked_eq_false_iff (h : c.mode = .checked n) :
    c.capacityOutOfBounds = false ↔
      (c.limitsEnforced = true → c.lowerLimit ≤ n ∧ n ≤ c.upperLimit) := by
  simp [Config.capacityOutOfBounds, h]

theorem Config.capacityOutOfBounds_unchecked (h : c.mode = .unchecked w) :
    c.capacityOutOfBounds = false := by
  simp [Config.capacityOutOfBounds, h]

/-- Legality of a checked configuration over a proper element type (R6). -/
theorem Config.legal_checked_iff (hdw : 1 ≤ c.dw) (hd : c.dflt < 2 ^ c.dw) (h : c.mode = .checked n) :
    c.legal = true ↔
      1 ≤ n ∧ (c.limitsEnforced = true → c.lowerLimit ≤ n ∧ n ≤ c.upperLimit) := by
  rw [Config.legal_iff, Config.isConfiguration_iff, Config.capacity_checked h,
    Config.capacityOutOfBounds_checked_eq_false_iff h]
  simp [hdw, hd]

/-- An unchecked configuration over a proper element type is legal whatever its limits (R7). -/
theorem Config.legal_unchecked (hdw : 1 ≤ c.dw) (hd : c.dflt < 2 ^ c.dw) (h : c.mode = .unchecked w) :
    c.legal = true := by
  have hpos : 1 ≤ c.capacity := by rw [Config.capacity_unchecked h]; exact Nat.two_pow_pos _
  exact Config.legal_iff.2
    ⟨c.isConfiguration_iff.2 ⟨hpos, hdw, hd⟩, Config.capacityOutOfBounds_unchecked h⟩

theorem Width.two_pow_bits (w : Width) : 2 ^ w.bits = 256 ∨ 2 ^ w.bits = 65536 := by
  cases w with
  | w8 => exact .inl rfl
  | w16 => exact .inr rfl

theorem Machine.new_of_not_legal (h : c.legal = false) : Machine.State.new c = none := by
  simp [Machine.State.new, h]

/-- Settles O5, from the two legality lemmas, one per mode. -/
theorem legalConfigurations : Obligations.LegalConfigurations := by
  intro c hdw hd
  refine ⟨fun n hm => ⟨Config.capacity_checked hm, fun hl => ?_, fun hl => ?_⟩, fun w hm => ?_,
    Machine.new_of_legal, Machine.new_of_not_legal⟩
  · simp [Config.legal_checked_iff hdw hd hm, hl]
  · simp [Config.legal_checked_iff hdw hd hm, hl]
  · have hcap := Config.capacity_unchecked hm
    exact ⟨Config.legal_unchecked hdw hd hm, hcap, hcap ▸ w.two_pow_bits⟩

end Sys2Proof
end

section
/-! SUPPORT. An admitted command's word decodes to that command (R71). -/

namespace Sys2Proof

variable {c : Config} {i : Instr}

/-- The fields of a command's word, over all constructors. -/
theorem Laws.FieldsOfTheWord.statement (i : Instr) : Laws.FieldsOfTheWord.Statement i := by
  cases i with
  | nop => exact Laws.FieldsOfTheWord.nop
  | push x => exact Laws.FieldsOfTheWord.push x
  | pop => exact Laws.FieldsOfTheWord.pop
  | clear => exact Laws.FieldsOfTheWord.clear
  | len => exact Laws.FieldsOfTheWord.len
  | item j => exact Laws.FieldsOfTheWord.item j

theorem opOf_lt (i : Instr) : opOf i < 8 := by
  cases i <;> simp [opOf]

/-- The word of an admitted command has the length of a command word (R61). -/
theorem isBits_encode (h : WellFormed c i = true) : isBits c.wordWidth (encode i) = true := by
  obtain ⟨harg, -, -⟩ := Laws.FieldsOfTheWord.statement i c h
  have hop := opOf_lt i
  rw [isBits_iff, Config.wordWidth, Nat.pow_add, encode]
  omega

theorem decode_encode (h : WellFormed c i = true) : decode c (encode i) = .command i := by
  obtain ⟨-, hop, harg⟩ := Laws.FieldsOfTheWord.statement i c h
  rw [decode, if_pos (isBits_encode h), hop, harg]
  cases i with
  | nop => rfl
  | push x =>
    have hx : x < 2 ^ c.dw := isBits_iff.1 h
    simp [opOf, argOf, elementOperand, Nat.mod_eq_of_lt hx]
  | pop => simp [opOf, ringOnly, show c.kind = .ring from of_decide_eq_true h]
  | clear => simp [opOf, ringOnly, show c.kind = .ring from of_decide_eq_true h]
  | len => simp [opOf, ringOnly, show c.kind = .ring from of_decide_eq_true h]
  | item j => simp [opOf, argOf, itemCommand, show j < c.capacity from of_decide_eq_true h]

end Sys2Proof
end

section
/-! SUPPORT. What an admitted command does to the invariant: it completes, keeps it, and answers (R30, R64). -/

namespace Sys2Proof.Machine

variable {s t : State} {i : Instr}

/-- Every admitted command completes from a state that meets the invariant. -/
theorem exec_completes (h : s.Inv) (hw : WellFormed s.cfg i = true) : ∃ t, exec i s = .next t := by
  have ringTail (hk : decide (s.cfg.kind = .ring) = true) :=
    h.ringTail_ring (of_decide_eq_true hk)
  cases i with
  | nop => exact ⟨_, rfl⟩
  | push x => exact ⟨_, execPush_of_lt h.sound.head⟩
  | pop =>
    obtain ⟨t0, ht, -, hlt⟩ := ringTail hw
    by_cases he : t0 = s.head
    · exact ⟨_, execPop_empty (he ▸ ht)⟩
    · exact ⟨_, execPop_some ht he hlt⟩
  | clear => obtain ⟨t0, ht, -⟩ := ringTail hw; exact ⟨_, execClear_of_some ht⟩
  | len => obtain ⟨t0, ht, -⟩ := ringTail hw; exact ⟨_, execLen_of_some ht⟩
  | item j => exact ⟨_, execItem_of_lt (of_decide_eq_true hw)⟩

/-- Only an admitted `PUSH` writes a slot, and its element has `DW` bits (R23). -/
theorem exec_keeps_fits (h : s.Inv) (hw : WellFormed s.cfg i = true) (he : exec i s = .next t) :
    Memory.fits s.cfg.capacity s.cfg.dw t.buffer = true := by
  obtain ⟨-, hhead, -, -, hfits, -⟩ := h
  cases i with
  | nop => cases he; exact hfits
  | push x =>
    obtain ⟨-, rfl⟩ := execPush_eq_next he
    rw [State.pushed_buffer]
    exact Memory.write_fits hfits hhead (isBits_iff.1 hw)
  | pop => rcases execPop_eq_next he with ⟨-, rfl⟩ | ⟨t0, -, -, -, rfl⟩ <;> exact hfits
  | clear => obtain ⟨-, rfl⟩ := execClear_eq_next he; exact hfits
  | len => obtain ⟨t0, -, rfl⟩ := execLen_eq_next he; exact hfits
  | item j => obtain ⟨-, rfl⟩ := execItem_eq_next he; exact hfits

/-- A command that goes on answers one response, in the range of R64. -/
theorem exec_answers_inRange (h : s.Inv) (he : exec i s = .next t) :
    ∃ r, t.response = some r ∧ r.inRange s.cfg = true := by
  cases i with
  | nop => cases he; exact ⟨.ack, rfl, rfl⟩
  | push x => obtain ⟨-, rfl⟩ := execPush_eq_next he; exact ⟨.ack, s.pushed_response, rfl⟩
  | pop =>
    rcases execPop_eq_next he with ⟨-, rfl⟩ | ⟨t0, -, -, hlt, rfl⟩
    · exact ⟨.popNone, rfl, rfl⟩
    · exact ⟨.popSome t0 (s.slot t0), rfl, by simp [Response.inRange, hlt, h.slot_lt]⟩
  | clear => obtain ⟨-, rfl⟩ := execClear_eq_next he; exact ⟨.ack, rfl, rfl⟩
  | len =>
    obtain ⟨t0, ht, rfl⟩ := execLen_eq_next he
    obtain ⟨t1, ht1, -, hlt⟩ := h.ringTail_ring (State.ringTail_eq_some.1 ht).1
    obtain rfl : t1 = t0 := Option.some.inj (ht1.symm.trans ht)
    exact ⟨_, rfl, decide_eq_true (indexDist_lt h.sound.head hlt)⟩
  | item j =>
    obtain ⟨-, rfl⟩ := execItem_eq_next he
    exact ⟨.elem (s.slot j), rfl, isBits_iff.2 (h.slot_lt j)⟩

/-- Every admitted command keeps the invariant. -/
theorem State.Inv.exec (h : s.Inv) (hw : WellFormed s.cfg i = true)
    (he : Sys2Proof.Machine.exec i s = .next t) : t.Inv := by
  obtain ⟨hcfg, -⟩ := exec_keeps_cfg_inputs he
  have hsound := h.sound.exec he
  obtain ⟨r, hr, hrange⟩ := exec_answers_inRange h he
  refine ⟨hcfg ▸ h.1, hsound.head, hsound.tail, hsound.canonical, hcfg ▸ exec_keeps_fits h hw he, ?_⟩
  simp [hr, hcfg, hrange]

end Sys2Proof.Machine
end

section
/-! SUPPORT. No command reads what the host is still to present (log entry 4): changing that list before a command
is changing it after. -/

namespace Sys2Proof.Machine

variable {s t : State} {i : Instr} (es : List HostEvent)

theorem State.chaseTail_withInputs :
    ({ s with inputs := es } : State).chaseTail = { s.chaseTail with inputs := es } := by
  have hring : ({ s with inputs := es } : State).ringTail = s.ringTail := rfl
  unfold State.chaseTail
  rw [hring]
  cases s.ringTail with
  | none => rfl
  | some t0 => by_cases h : s.head = t0 <;> simp [h, State.setTail]

theorem State.pushed_withInputs (x : Nat) :
    ({ s with inputs := es } : State).pushed x = { s.pushed x with inputs := es } :=
  congrArg (State.respond · .ack) (State.chaseTail_withInputs
    (s := State.advanceHead { s with buffer := Memory.write s.cfg.dflt s.buffer s.head x }) es)

theorem exec_withInputs (he : exec i s = .next t) :
    exec i { s with inputs := es } = .next { t with inputs := es } := by
  cases i with
  | nop => cases he; rfl
  | push x =>
    obtain ⟨hlt, rfl⟩ := execPush_eq_next he
    exact (execPush_of_lt (s := { s with inputs := es }) hlt).trans
      (congrArg _ (State.pushed_withInputs es x))
  | pop =>
    rcases execPop_eq_next he with ⟨ht, rfl⟩ | ⟨t0, ht, hne, hlt, rfl⟩
    · exact execPop_empty (s := { s with inputs := es }) ht
    · exact execPop_some (s := { s with inputs := es }) ht hne hlt
  | clear =>
    obtain ⟨⟨t0, ht⟩, rfl⟩ := execClear_eq_next he
    exact execClear_of_some (s := { s with inputs := es }) ht
  | len =>
    obtain ⟨t0, ht, rfl⟩ := execLen_eq_next he
    exact execLen_of_some (s := { s with inputs := es }) ht
  | item j =>
    obtain ⟨hlt, rfl⟩ := execItem_eq_next he
    exact execItem_of_lt (s := { s with inputs := es }) hlt

end Sys2Proof.Machine
end

section
/-! SUPPORT. The step and the run in terms of the command presented (R12, R71, D4). -/

namespace Sys2Proof.Machine

variable {s t : State} {i : Instr} {rest : List HostEvent}

theorem step_of_decode {w : Nat} (hi : s.inputs = .present [w] :: rest)
    (hd : decode s.cfg w = .command i) : step s = exec i { s with inputs := rest } := by
  rw [step, fetch_of_decode hi hd]

/-- A host that presents nothing more leaves the machine idle (D4). -/
theorem step_of_inputs_nil (hi : s.inputs = []) : step s = .next (s.respond .ack) := by
  rw [step, fetch, hi]; rfl

/-- A step with no word presented is the idle step (D4). -/
theorem step_of_present_nil (hi : s.inputs = .present [] :: rest) :
    step s = .next (State.respond { s with inputs := rest } .ack) := by
  rw [step, fetch, hi]; rfl

/-- Settles O31, by what the fetch makes of each presentation. -/
theorem stepRunsTheDecodedCommand : Obligations.StepRunsTheDecodedCommand :=
  ⟨fun _ _ _ _ => step_of_decode, fun _ => step_of_inputs_nil, fun _ _ => step_of_present_nil⟩

/-- The step in which the host presents an admitted command is that command. -/
theorem step_present_encode (hw : WellFormed s.cfg i = true) (he : exec i s = .next t) :
    step { s with inputs := .present [encode i] :: rest } = .next { t with inputs := rest } :=
  (step_of_decode (s := { s with inputs := .present [encode i] :: rest }) rfl (decode_encode hw)).trans
    (exec_withInputs (s := s) rest he)

theorem run_succ_of_step {k : Nat} (h : step s = .next t) :
    Sys2Proof.core.run (k + 1) s = Sys2Proof.core.run k t := by
  simp [Host.Core.run, Sys2Proof.core, h]

/-- Settles O34, by induction on the commands: the first one completes, keeps the invariant and is the machine's
first step, and the induction hypothesis does the rest. -/
theorem presentedCommandsRunInOrder : Obligations.PresentedCommandsRunInOrder := by
  intro cs
  induction cs with
  | nil => exact fun s hs _ => ⟨[], s, rfl, rfl, hs, rfl⟩
  | cons i is ih =>
    intro s hs hw
    obtain ⟨hwi, hwis⟩ := List.forall_mem_cons.1 hw
    obtain ⟨t, he⟩ := exec_completes hs hwi
    obtain ⟨hcfg, -⟩ := exec_keeps_cfg_inputs he
    obtain ⟨r, hr, -⟩ := exec_answers_inRange hs he
    obtain ⟨rs, u, hrun, hlen, hu, hcore⟩ := ih t (hs.exec hwi he) (hcfg ▸ hwis)
    refine ⟨r :: rs, u, ?_, by simp [hlen], hu, ?_⟩
    · simp [runCommands_cons he, hrun, hr]
    · exact (run_succ_of_step (step_present_encode hwi he)).trans hcore

end Sys2Proof.Machine
end

section
/-! SUPPORT. What decodes to a command is a command the configuration admits, its operand in range (R63, R65, R71). -/

namespace Sys2Proof

variable {c : Config} {i : Instr} {w : Nat}

theorem ringOnly_eq_command {j : Instr} (h : ringOnly c j = .command i) : c.kind = .ring ∧ j = i := by
  unfold ringOnly at h
  cases hk : c.kind <;> simp only [hk] at h <;> cases h
  exact ⟨rfl, rfl⟩

theorem itemCommand_eq_command {a : Nat} (h : itemCommand c a = .command i) :
    a < c.capacity ∧ i = .item a := by
  unfold itemCommand at h
  split at h <;> cases h
  exact ⟨‹_›, rfl⟩

/-- The rows of the decoder that give a command (R71). -/
theorem decode_eq_command_cases (h : decode c w = .command i) :
    i = .nop ∨ (∃ arg, i = .push (elementOperand c arg)) ∨
      (c.kind = .ring ∧ (i = .pop ∨ i = .clear ∨ i = .len)) ∨ ∃ a, a < c.capacity ∧ i = .item a := by
  unfold decode at h
  split at h
  · split at h
    · cases h; exact .inl rfl
    · cases h; exact .inr (.inl ⟨_, rfl⟩)
    · obtain ⟨hk, rfl⟩ := ringOnly_eq_command h; exact .inr (.inr (.inl ⟨hk, .inl rfl⟩))
    · obtain ⟨hk, rfl⟩ := ringOnly_eq_command h; exact .inr (.inr (.inl ⟨hk, .inr (.inl rfl)⟩))
    · obtain ⟨hk, rfl⟩ := ringOnly_eq_command h; exact .inr (.inr (.inl ⟨hk, .inr (.inr rfl)⟩))
    · exact .inr (.inr (.inr ⟨_, itemCommand_eq_command h⟩))
    · cases h
  · cases h

theorem wellFormed_of_decode (h : decode c w = .command i) : WellFormed c i = true := by
  rcases decode_eq_command_cases h with
    rfl | ⟨arg, rfl⟩ | ⟨hk, rfl | rfl | rfl⟩ | ⟨a, ha, rfl⟩
  · rfl
  · exact isBits_iff.2 (Nat.mod_lt _ (Nat.two_pow_pos _))
  · exact decide_eq_true hk
  · exact decide_eq_true hk
  · exact decide_eq_true hk
  · exact decide_eq_true ha

end Sys2Proof
end

section
/-! SUPPORT. One step from a state that meets the invariant, and any run of steps: a next state with the invariant,
or a refusal (R12, R30). -/

namespace Sys2Proof.Machine

open Sys2Proof.Claims

variable {s t : State} {i : Instr}

/-- The command a step runs is the idle step's `NOP` or the one the host presents (D4, R71). -/
theorem fetch_run_spec {u : State} (h : fetch s = .run i u) :
    ∃ rest, u = { s with inputs := rest } ∧ (i = .nop ∨ Presents s i) := by
  rcases fetch_run_cases h with ⟨-, rfl, rfl⟩ | ⟨rest, -, rfl, rfl⟩ | ⟨w, rest, hi, hd, rfl⟩
  · exact ⟨u.inputs, rfl, .inl rfl⟩
  · exact ⟨rest, rfl, .inl rfl⟩
  · exact ⟨rest, rfl, .inr ⟨w, rest, hi, hd⟩⟩

theorem wellFormed_of_nop_or_presents (h : i = .nop ∨ Presents s i) : WellFormed s.cfg i = true := by
  rcases h with rfl | ⟨w, rest, -, hd⟩
  · rfl
  · exact wellFormed_of_decode hd

/-- What a step that goes on can be: one command, or the reset event (R12). -/
theorem step_next_cases (h : step s = .next t) :
    (∃ i rest, (i = .nop ∨ Presents s i) ∧ exec i { s with inputs := rest } = .next t) ∨
      ∃ rest, s.inputs = .reset :: rest ∧ s.cfg.legal = true ∧
        t = { State.initial s.cfg with inputs := rest } := by
  rcases step_eq_next h with ⟨i, u, hf, he⟩ | ⟨u, hf, hr⟩
  · obtain ⟨rest, rfl, hi⟩ := fetch_run_spec hf
    exact .inl ⟨i, rest, hi, he⟩
  · obtain ⟨rest, hin, rfl⟩ := fetch_reset_cases hf
    exact .inr ⟨rest, hin, resetEvent_eq_next hr⟩

/-- The reset values meet the invariant, whatever the host is still to present (R34). -/
theorem State.inv_initial {c : Config} (hc : c.legal = true) (es : List HostEvent) :
    State.Inv { State.initial c with inputs := es } := by
  have hpos := Config.capacity_pos_of_legal hc
  refine ⟨hc, hpos, ?_, rfl, rfl, rfl⟩
  cases hk : c.kind with
  | ring => exact State.tailInRange_ring hk (initial_tail_ring c hk) hpos
  | manx => exact State.tailInRange_manx hk (initial_tail_manx c hk)

/-- The invariant says nothing of what the host is still to present. -/
theorem State.Inv.withInputs (h : s.Inv) (es : List HostEvent) : State.Inv { s with inputs := es } := h

/-- A step keeps the invariant and the parameters. -/
theorem State.Inv.step (h : s.Inv) (hs : Sys2Proof.Machine.step s = .next t) : t.Inv ∧ t.cfg = s.cfg := by
  rcases step_next_cases hs with ⟨i, rest, hi, he⟩ | ⟨rest, -, hc, rfl⟩
  · obtain ⟨hcfg, -⟩ := exec_keeps_cfg_inputs he
    have hw := wellFormed_of_nop_or_presents hi
    exact ⟨(h.withInputs rest).exec hw he, hcfg⟩
  · exact ⟨State.inv_initial hc rest, rfl⟩

/-- Settles O10: a command keeps the invariant since the decoder admits it, and a reset establishes it again. -/
theorem stepKeepsInv : Obligations.StepKeepsInv := fun _ _ h hs => h.step hs

/-- An admitted command completes and the reset event constructs, so what is left of a step is a refusal. -/
theorem step_ne_fault (h : s.Inv) (f : Fault) : step s ≠ .fault f := by
  intro hs
  unfold step at hs
  cases hf : fetch s with
  | run i u =>
    obtain ⟨rest, rfl, hi⟩ := fetch_run_spec hf
    have hw := wellFormed_of_nop_or_presents hi
    obtain ⟨t, ht⟩ := exec_completes (h.withInputs rest) hw
    simp [hf, ht] at hs
  | reset u =>
    obtain ⟨rest, -, rfl⟩ := fetch_reset_cases hf
    simp [hf, resetEvent_of_legal (h.withInputs rest).1] at hs
  | refuse r => simp [hf] at hs

/-- Settles O11, by what the fetch makes of the presentation. -/
theorem stepFromInvNeverFaults : Obligations.StepFromInvNeverFaults := fun _ f h => step_ne_fault h f

/-- The two ends of a run from the invariant: it goes on within the invariant, or the interface refuses. -/
theorem run_from_inv (h : s.Inv) (k : Nat) :
    (∃ t : State, Sys2Proof.core.run k s = .next t ∧ t.Inv ∧ t.cfg = s.cfg) ∨
      ∃ r, Sys2Proof.core.run k s = .refused r := by
  induction k generalizing s with
  | zero => exact .inl ⟨s, rfl, h, rfl⟩
  | succ k ih =>
    cases hs : step s with
    | next u =>
      obtain ⟨hu, hcfg⟩ := h.step hs
      rw [run_succ_of_step hs, ← hcfg]
      exact ih hu
    | fault f => exact absurd hs (step_ne_fault h f)
    | refused r => exact .inr ⟨r, by simp [Host.Core.run, Sys2Proof.core, hs]⟩

/-- Settles O12: a run from reset ends within the invariant or in a refusal. -/
theorem everyRunKeepsIndicesInRange : Obligations.EveryRunKeepsIndicesInRange := by
  intro c es k hc
  rcases run_from_inv (State.inv_initial hc es) k with ⟨u, hu, ⟨-, hhead, htail, -⟩, rfl⟩ | ⟨r, hr⟩
  · refine ⟨fun t ht => ?_, fun i hi => nomatch hu.symm.trans hi⟩
    obtain rfl : u = t := Host.Outcome.next.inj (hu.symm.trans ht)
    exact ⟨rfl, hhead, u.tail_of_inRange_ring htail⟩
  · exact ⟨fun t ht => (nomatch hr.symm.trans ht), fun i hi => nomatch hr.symm.trans hi⟩

/-- Settles O9: the reset values meet the invariant, those of the standard configuration among them. -/
theorem resetEstablishesInv : Obligations.ResetEstablishesInv :=
  ⟨fun _ es hc => State.inv_initial hc es, State.inv_initial (c := Config.standard) (by decide) []⟩

end Sys2Proof.Machine
end

section
/-! SUPPORT. The advance and the distance of indices in range (R83, R84, R86). -/

namespace Sys2Proof.Machine

variable {c : Config} {h t i : Nat}

/-- The rules' own formulas (R80, R81) are the two advances, on every number. -/
theorem nextIndex_eq_adv (c : Config) (i : Nat) : Claims.nextIndex c.mode i = adv c i := by
  unfold Claims.nextIndex adv
  cases c.mode with
  | checked n => rfl
  | unchecked w => exact (advWrap_eq_mod w i).symm

theorem adv_eq_self_iff (hi : i < c.capacity) : adv c i = i ↔ c.capacity = 1 := by
  rw [adv_eq_ite hi]; split <;> omega

theorem indexDist_eq_zero_iff {n : Nat} (ht : t < n) : indexDist n h t = 0 ↔ h = t := by
  unfold indexDist; split <;> omega

/-- The distance is as large as it can be exactly when the next slot is the tail (R27). -/
theorem indexDist_eq_pred_iff (hh : h < c.capacity) (ht : t < c.capacity) :
    indexDist c.capacity h t = c.capacity - 1 ↔ adv c h = t := by
  rw [adv_eq_ite hh, indexDist]; split_ifs <;> omega

theorem indexDist_adv_head (hh : h < c.capacity) (ht : t < c.capacity) (hne : adv c h ≠ t) :
    indexDist c.capacity (adv c h) t = indexDist c.capacity h t + 1 := by
  rw [adv_eq_ite hh] at *
  unfold indexDist
  split_ifs at * <;> omega

theorem indexDist_adv_tail (hh : h < c.capacity) (ht : t < c.capacity) (hne : h ≠ t) :
    indexDist c.capacity h (adv c t) + 1 = indexDist c.capacity h t := by
  rw [adv_eq_ite ht]
  unfold indexDist
  split_ifs <;> omega

theorem iterate_adv (k : Nat) (hi : i < c.capacity) : (adv c)^[k] i = (i + k) % c.capacity := by
  induction k with
  | zero => exact (Nat.mod_eq_of_lt hi).symm
  | succ k ih =>
    rw [Function.iterate_succ_apply', ih, adv_eq_mod (Nat.mod_lt _ (by omega)), Nat.mod_add_mod]
    rfl

/-- As many advances as the distance lead from the tail to the head (R84). -/
theorem iterate_adv_indexDist (hh : h < c.capacity) (ht : t < c.capacity) :
    (adv c)^[indexDist c.capacity h t] t = h := by
  rw [iterate_adv _ ht, indexDist]
  split
  · rw [show t + (c.capacity + h - t) = h + c.capacity by omega, Nat.add_mod_right, Nat.mod_eq_of_lt hh]
  · rw [show t + (h - t) = h by omega, Nat.mod_eq_of_lt hh]

end Sys2Proof.Machine
end

section
/-! SUPPORT. The status values (R26 to R28) in a ring and in a manx, at reset and after each kind of command. -/

namespace Sys2Proof.Machine

open Sys2Proof.Claims

variable {s t : State} {t0 x : Nat} {i : Instr}

/-! ### At reset -/

@[simp] theorem initial_slot (c : Config) (j : Nat) : (State.initial c).slot j = c.dflt := rfl

theorem initial_empty {c : Config} (hk : c.kind = .ring) : (State.initial c).empty = some true := by
  simp [State.empty_ring (s := .initial c) hk (State.initial_tail_ring c hk)]

theorem initial_length {c : Config} (hk : c.kind = .ring) : (State.initial c).length = some 0 := by
  simp [State.length_ring (s := .initial c) hk (State.initial_tail_ring c hk), indexDist]

/-- A fresh ring is full in the degenerate capacity alone (R34). -/
theorem initial_full {c : Config} (hc : c.legal = true) (hk : c.kind = .ring) :
    (State.initial c).full = some (c.capacity == 1) := by
  rw [State.full_ring (s := .initial c) hk (State.initial_tail_ring c hk)]
  exact congrArg some (Bool.eq_iff_iff.2 (by simp [adv_eq_self_iff (Config.capacity_pos_of_legal hc)]))

/-- Settles O6, from the reset value of each part of the state. -/
theorem resetValues : Obligations.ResetValues := by
  refine fun c hc => ⟨_, new_of_legal hc, rfl, State.initial_tail_ring c, State.initial_tail_manx c,
    fun j _ => initial_slot c j, fun hk => ⟨initial_empty hk, initial_length hk, fun hN => ?_, fun hN => ?_⟩⟩
  · have hne : c.capacity ≠ 1 := by omega
    simp [initial_full hc hk, hne]
  · simp [initial_full hc hk, hN]

/-! ### In a manx -/

theorem State.no_status_manx (hk : s.cfg.kind = .manx) :
    s.empty = none ∧ s.full = none ∧ s.length = none := by
  simp [State.empty, State.full, State.length, State.ringTail_manx s hk]

/-! ### In a ring -/

theorem State.empty_eq_true_iff (hk : s.cfg.kind = .ring) (ht : s.tail = some t0) :
    s.empty = some true ↔ s.head = t0 := by simp [State.empty_ring hk ht]

theorem State.empty_eq_false_iff (hk : s.cfg.kind = .ring) (ht : s.tail = some t0) :
    s.empty = some false ↔ s.head ≠ t0 := by simp [State.empty_ring hk ht]

theorem State.full_eq_true_iff (hk : s.cfg.kind = .ring) (ht : s.tail = some t0) :
    s.full = some true ↔ adv s.cfg s.head = t0 := by simp [State.full_ring hk ht]

theorem State.length_live (hk : s.cfg.kind = .ring) (ht : s.tail = some t0) (hlt : t0 < s.cfg.capacity) :
    s.live.length = indexDist s.cfg.capacity s.head t0 := by simp [State.live_ring hk ht hlt]

/-- `EMPTY` is a function of the indices alone (R26): a response does not change it. -/
@[simp] theorem respond_empty (r : Response) : (s.respond r).empty = s.empty := rfl

theorem State.tail_ne_head_of_not_empty (hk : s.cfg.kind = .ring) (he : s.empty = some false) :
    s.tail ≠ some s.head := fun ht => by simp [State.empty_ring hk ht] at he

theorem State.Sound.tail_lt (h : s.Sound) (hk : s.cfg.kind = .ring) (ht : s.tail = some t0) :
    t0 < s.cfg.capacity := by
  obtain ⟨t1, ht1, hlt⟩ := s.tail_of_inRange_ring h.tail hk
  exact Option.some.inj (ht1.symm.trans ht) ▸ hlt

theorem State.Sound.length_le (h : s.Sound) (hk : s.cfg.kind = .ring) :
    ∃ l, s.length = some l ∧ l ≤ s.cfg.capacity - 1 := by
  obtain ⟨t0, ht, hlt⟩ := s.tail_of_inRange_ring h.tail hk
  exact ⟨_, State.length_ring hk ht, Nat.le_sub_one_of_lt (indexDist_lt h.head hlt)⟩

theorem State.Sound.length_pos {l : Nat} (h : s.Sound) (hk : s.cfg.kind = .ring) (he : s.empty = some false)
    (hl : s.length = some l) : 1 ≤ l := by
  obtain ⟨t0, ht, hlt⟩ := s.tail_of_inRange_ring h.tail hk
  obtain rfl : indexDist s.cfg.capacity s.head t0 = l := by simpa [State.length_ring hk ht] using hl
  have hne := (State.empty_eq_false_iff hk ht).1 he
  exact Nat.one_le_iff_ne_zero.2 (mt (indexDist_eq_zero_iff hlt).1 hne)

/-- A ring of one slot is always empty (R111). -/
theorem State.Sound.two_le_capacity (h : s.Sound) (hk : s.cfg.kind = .ring) (he : s.empty = some false) :
    2 ≤ s.cfg.capacity := by
  obtain ⟨t0, ht, hlt⟩ := s.tail_of_inRange_ring h.tail hk
  have hne := (State.empty_eq_false_iff hk ht).1 he
  have hhead := h.head
  omega

theorem State.pushed_kind (hk : s.cfg.kind = .ring) (x : Nat) : (s.pushed x).cfg.kind = .ring := by
  rwa [State.pushed_cfg]

/-- Right after a `PUSH` the head has left the tail, which an eviction moves on (R31). -/
theorem State.Sound.pushed_empty (h : s.Sound) (hk : s.cfg.kind = .ring) (hN : s.cfg.capacity ≥ 2) (x : Nat) :
    (s.pushed x).empty = some false := by
  obtain ⟨t0, ht, hlt⟩ := s.tail_of_inRange_ring h.tail hk
  have hmoves : adv s.cfg t0 ≠ t0 := mt (adv_eq_self_iff hlt).1 (by omega)
  rw [State.empty_eq_false_iff (State.pushed_kind hk x) (State.pushed_tail_ring hk ht), State.pushed_head]
  by_cases he : adv s.cfg s.head = t0
  · rw [if_pos he, he]; exact hmoves.symm
  · rwa [if_neg he]

/-- Settles O13: the distance of two indices in range is below `N`, and not 0 once they differ. -/
theorem occupancyBelowCapacity : Obligations.OccupancyBelowCapacity := by
  intro s h hk
  refine ⟨h.sound.length_le hk, fun hN x => ?_⟩
  have hk' := State.pushed_kind hk x
  have hempty := h.sound.pushed_empty hk hN x
  obtain ⟨l, hl, hle⟩ := (h.sound.pushed x).length_le hk'
  rw [State.pushed_cfg] at hle
  exact ⟨_, l, execPush_of_lt h.sound.head, hempty, State.tail_ne_head_of_not_empty hk' hempty, hl,
    (h.sound.pushed x).length_pos hk' hempty hl, hle⟩

/-- The `PUSH` evicts exactly when the ring is full (R27). -/
theorem State.Sound.pushed_tail_ne_iff (h : s.Sound) (hk : s.cfg.kind = .ring) (hN : s.cfg.capacity ≥ 2) (x : Nat) :
    (s.pushed x).tail ≠ s.tail ↔ s.full = some true := by
  obtain ⟨t0, ht, hlt⟩ := s.tail_of_inRange_ring h.tail hk
  have hmoves : adv s.cfg t0 ≠ t0 := mt (adv_eq_self_iff hlt).1 (by omega)
  rw [State.pushed_tail_ring hk ht, State.full_eq_true_iff hk ht, ht]
  by_cases he : adv s.cfg s.head = t0 <;> simp [he, hmoves]

theorem State.Sound.full_iff_length (h : s.Sound) (hk : s.cfg.kind = .ring) :
    s.full = some true ↔ s.length = some (s.cfg.capacity - 1) := by
  obtain ⟨t0, ht, hlt⟩ := s.tail_of_inRange_ring h.tail hk
  rw [State.full_eq_true_iff hk ht, State.length_ring hk ht, Option.some_inj]
  exact (indexDist_eq_pred_iff h.head hlt).symm

theorem State.Sound.not_full_and_empty (h : s.Sound) (hk : s.cfg.kind = .ring) (hN : s.cfg.capacity ≥ 2) :
    ¬(s.full = some true ∧ s.empty = some true) := by
  obtain ⟨t0, ht, hlt⟩ := s.tail_of_inRange_ring h.tail hk
  rw [State.full_eq_true_iff hk ht, State.empty_eq_true_iff hk ht]
  rintro ⟨hfull, rfl⟩
  have hone := (adv_eq_self_iff hlt).1 hfull
  omega

/-- Settles O14: both values are functions of the two indices, and the laws of the distance relate them. -/
theorem fullAndLength : Obligations.FullAndLength := by
  refine ⟨fun s _ hk => State.no_status_manx hk, fun s t0 h hk ht => ?_, fun c hc hk => initial_full hc hk⟩
  have hlen := State.length_ring hk ht
  obtain ⟨l, hl, hle⟩ := h.sound.length_le hk
  obtain rfl : indexDist s.cfg.capacity s.head t0 = l := Option.some.inj (hlen.symm.trans hl)
  refine ⟨by rw [nextIndex_eq_adv, State.full_ring hk ht], hlen,
    ⟨_, hl, hle, (State.length_live hk ht (h.sound.tail_lt hk ht)).symm,
      execLen_of_some (State.ringTail_eq_some.2 ⟨hk, ht⟩)⟩,
    h.sound.full_iff_length hk, fun hN => ⟨h.sound.not_full_and_empty hk hN, fun x => ?_⟩⟩
  exact ⟨_, execPush_of_lt h.sound.head, h.sound.pushed_tail_ne_iff hk hN x⟩

/-! ### Which commands change `EMPTY` -/

theorem State.setTail_empty (hk : s.cfg.kind = .ring) (v : Nat) :
    (s.setTail v).empty = some (s.head == v) := State.empty_ring (s := s.setTail v) hk rfl

/-- A `POP` of a ring that is not empty leaves it empty exactly when one element was live (R26). -/
theorem State.Sound.head_eq_adv_tail_iff (h : s.Sound) (hk : s.cfg.kind = .ring) (ht : s.tail = some t0)
    (hne : t0 ≠ s.head) : s.head = adv s.cfg t0 ↔ s.length = some 1 := by
  have hlt := h.tail_lt hk ht
  have hstep := indexDist_adv_tail h.head hlt hne.symm
  rw [State.length_ring hk ht, Option.some_inj, ← hstep, Nat.add_eq_right]
  exact (indexDist_eq_zero_iff (adv_lt hlt)).symm

/-- `EMPTY` after any command but a `PUSH`: true after `CLEAR` and after the `POP` of the last element, else as it
was (R26). -/
theorem exec_empty (h : s.Sound) (hk : s.cfg.kind = .ring) (he : exec i s = .next t) (hi : isPush i = false) :
    t.empty = if i = .clear ∨ i = .pop ∧ s.length = some 1 then some true else s.empty := by
  cases i with
  | nop => cases he; rfl
  | push x => cases hi
  | pop =>
    rcases execPop_eq_next he with ⟨ht, rfl⟩ | ⟨t0, ht, hne, -, rfl⟩
    · have hempty := State.empty_ring hk (State.ringTail_eq_some.1 ht).2
      simp [hempty]
    · obtain ⟨-, ht⟩ := State.ringTail_eq_some.1 ht
      have hlast := h.head_eq_adv_tail_iff hk ht hne
      rw [respond_empty, State.setTail_empty hk, State.empty_ring hk ht]
      by_cases hone : s.length = some 1
      · simp [hone, hlast.2 hone]
      · simp [hone, mt hlast.1 hone, hne.symm]
  | clear =>
    obtain ⟨-, rfl⟩ := execClear_eq_next he
    simp [State.setTail_empty hk]
  | len => obtain ⟨-, -, rfl⟩ := execLen_eq_next he; rfl
  | item j => obtain ⟨-, rfl⟩ := execItem_eq_next he; rfl

theorem exec_push_not_empty (h : s.Sound) (hk : s.cfg.kind = .ring) (hN : s.cfg.capacity ≥ 2)
    (he : exec i s = .next t) (hi : isPush i = true) : t.empty = some false := by
  cases i with
  | push x => obtain ⟨-, rfl⟩ := execPush_eq_next he; exact h.pushed_empty hk hN x
  | _ => cases hi

/-- Settles O15, from `EMPTY` after a `PUSH` and after any other command. -/
theorem emptyAndItsChanges : Obligations.EmptyAndItsChanges := by
  refine ⟨fun s t0 _ hk ht => State.empty_ring hk ht, fun s t i h hk he => ?_, fun c _ hk => initial_empty hk⟩
  have hpush (hN : s.cfg.capacity ≥ 2) := exec_push_not_empty h.sound hk hN he
  have hother := exec_empty h.sound hk he
  refine ⟨fun hs ht => ?_, fun hi hN => hpush hN hi, fun hs ht => ?_, ?_, ?_⟩
  · by_contra hi
    simp [hother (by simpa using hi), hs] at ht
  · have hi : isPush i = false := by
      by_contra hi
      simp [hpush (h.sound.two_le_capacity hk hs) (by simpa using hi)] at ht
    by_contra hc
    simp [hother hi, hc, hs] at ht
  · rintro rfl; simp [hother rfl]
  · rintro rfl hone; simp [hother rfl, hone]

end Sys2Proof.Machine
end

section
/-! SUPPORT. A ring as a bounded queue that overwrites its oldest element (R36): what each command does to the live
sequence. -/

namespace Sys2Proof.Machine

variable {s t : State} {t0 x : Nat}

theorem slotsFrom_succ (c : Config) (i l : Nat) :
    slotsFrom c i (l + 1) = slotsFrom c i l ++ [(adv c)^[l] i] := by
  induction l generalizing i with
  | zero => rfl
  | succ l ih => rw [slotsFrom, ih, Function.iterate_succ_apply]; rfl

/-- The live slots do not reach the head (R36). -/
theorem head_not_mem_slotsFrom {c : Config} {h t : Nat} (hh : h < c.capacity) (ht : t < c.capacity) :
    h ∉ slotsFrom c t (indexDist c.capacity h t) := by
  rw [slotsFrom_eq_map _ ht, List.mem_map]
  rintro ⟨k, hk, he⟩
  have hkd : k < indexDist c.capacity h t := List.mem_range.1 hk
  have hkN : k < c.capacity := hkd.trans (indexDist_lt hh ht)
  unfold indexDist at hkd
  by_cases hwrap : t + k < c.capacity
  · rw [Nat.mod_eq_of_lt hwrap] at he
    split_ifs at hkd <;> omega
  · rw [Nat.mod_eq_sub_mod (by omega), Nat.mod_eq_of_lt (by omega)] at he
    split_ifs at hkd <;> omega

theorem State.live_eq_map_slotsFrom (hk : s.cfg.kind = .ring) (ht : s.tail = some t0) :
    s.live = (slotsFrom s.cfg t0 (indexDist s.cfg.capacity s.head t0)).map s.slot := by
  simp [State.live, State.liveSlots, State.ringTail_ring s hk, ht]

theorem State.live_of_head_eq_tail (hk : s.cfg.kind = .ring) (ht : s.tail = some s.head) : s.live = [] := by
  simp [State.live_eq_map_slotsFrom hk ht, indexDist, slotsFrom]

@[simp] theorem respond_live (r : Response) : (s.respond r).live = s.live := rfl

/-- The write of a `PUSH` puts its element behind the live ones and leaves those alone: the next slot is no live one. -/
theorem State.Sound.map_pushed_slot (h : s.Sound) (hk : s.cfg.kind = .ring) (ht : s.tail = some t0) (x : Nat) :
    (slotsFrom s.cfg t0 (indexDist s.cfg.capacity s.head t0 + 1)).map (s.pushed x).slot = s.live ++ [x] := by
  have hlt := h.tail_lt hk ht
  have hslot := State.pushed_slot (x := x) h.canonical
  have hfresh := head_not_mem_slotsFrom h.head hlt
  rw [slotsFrom_succ, iterate_adv_indexDist h.head hlt, List.map_append, State.live_eq_map_slotsFrom hk ht]
  congr 1
  · exact List.map_congr_left fun i hi => by rw [hslot, if_neg (ne_of_mem_of_not_mem hi hfresh)]
  · simp [hslot]

theorem State.Sound.live_pushed_of_not_full (h : s.Sound) (hk : s.cfg.kind = .ring) (ht : s.tail = some t0)
    (hfull : adv s.cfg s.head ≠ t0) (x : Nat) : (s.pushed x).live = s.live ++ [x] := by
  have htail := State.pushed_tail_ring (x := x) hk ht
  rw [if_neg hfull] at htail
  rw [State.live_eq_map_slotsFrom (State.pushed_kind hk x) htail, State.pushed_cfg, State.pushed_head,
    indexDist_adv_head h.head (h.tail_lt hk ht) hfull, h.map_pushed_slot hk ht]

/-- The eviction drops the oldest live element (R36, R106): the tail moves on by one, the number of live elements
stays at `N - 1`. -/
theorem State.Sound.live_pushed_of_full (h : s.Sound) (hk : s.cfg.kind = .ring) (ht : s.tail = some t0)
    (hfull : adv s.cfg s.head = t0) (x : Nat) : (s.pushed x).live = (s.live ++ [x]).drop 1 := by
  have hlt := h.tail_lt hk ht
  have htail := State.pushed_tail_ring (x := x) hk ht
  rw [if_pos hfull] at htail
  have hdist : indexDist s.cfg.capacity t0 (adv s.cfg t0) = indexDist s.cfg.capacity s.head t0 :=
    ((indexDist_eq_pred_iff hlt (adv_lt hlt)).2 rfl).trans ((indexDist_eq_pred_iff h.head hlt).2 hfull).symm
  rw [State.live_eq_map_slotsFrom (State.pushed_kind hk x) htail, State.pushed_cfg, State.pushed_head, hfull,
    hdist, ← h.map_pushed_slot hk ht]
  rfl

/-- The live sequence of a ring that is not empty begins at the tail; a `POP` moves the tail past it (R36). -/
theorem State.Sound.live_eq_cons (h : s.Sound) (hk : s.cfg.kind = .ring) (ht : s.tail = some t0)
    (hne : t0 ≠ s.head) : s.live = s.slot t0 :: (s.setTail (adv s.cfg t0)).live := by
  have hdist := indexDist_adv_tail h.head (h.tail_lt hk ht) hne.symm
  rw [State.live_eq_map_slotsFrom hk ht, ← hdist,
    State.live_eq_map_slotsFrom (s := s.setTail (adv s.cfg t0)) hk rfl]
  rfl

theorem exec_push_queue (h : s.Sound) (hk : s.cfg.kind = .ring) (hN : s.cfg.capacity ≥ 2) (x : Nat) :
    ∃ t, exec (.push x) s = .next t ∧
      (s.live.length < s.cfg.capacity - 1 → t.live = s.live ++ [x]) ∧
      (s.live.length = s.cfg.capacity - 1 → t.live = s.live.drop 1 ++ [x]) := by
  obtain ⟨t0, ht, hlt⟩ := s.tail_of_inRange_ring h.tail hk
  have hlen := State.length_live hk ht hlt
  have hfull := indexDist_eq_pred_iff h.head hlt
  refine ⟨_, execPush_of_lt h.head, fun hl => ?_, fun hl => ?_⟩
  · exact h.live_pushed_of_not_full hk ht (mt hfull.2 (by omega)) x
  · rw [h.live_pushed_of_full hk ht (hfull.1 (hlen ▸ hl)), List.drop_append_of_le_length (by omega)]

theorem exec_pop_queue (h : s.Sound) (hk : s.cfg.kind = .ring) (ht : s.tail = some t0) :
    ∃ t, exec .pop s = .next t ∧ t.live = s.live.drop 1 ∧
      (s.live = [] → t.response = some .popNone) ∧
      ∀ e q, s.live = e :: q → t.response = some (.popSome t0 e) := by
  have hring := State.ringTail_eq_some.2 ⟨hk, ht⟩
  by_cases he : t0 = s.head
  · have hlive := State.live_of_head_eq_tail hk (he ▸ ht)
    exact ⟨_, execPop_empty (he ▸ hring), by simp [hlive], fun _ => rfl, by simp [hlive]⟩
  · have hlive := h.live_eq_cons hk ht he
    refine ⟨_, execPop_some hring he (h.tail_lt hk ht), by simp [hlive], by simp [hlive], fun e q hq => ?_⟩
    rw [hlive] at hq
    obtain ⟨rfl, -⟩ := List.cons.inj hq
    rfl

/-- Settles O39, command by command on the live sequence. -/
theorem ringRefinesQueue : Obligations.RingRefinesQueue := by
  refine ⟨fun c _ hk => State.live_of_head_eq_tail hk (State.initial_tail_ring c hk), fun s t0 h hk hN ht => ?_⟩
  have hlt := h.sound.tail_lt hk ht
  have hlen := State.length_live hk ht hlt
  have hring := State.ringTail_eq_some.2 ⟨hk, ht⟩
  refine ⟨by rw [hlen, State.length_ring hk ht], by rw [hlen, iterate_adv_indexDist h.sound.head hlt],
    exec_push_queue h.sound hk hN, exec_pop_queue h.sound hk ht,
    ⟨_, execClear_of_some hring, State.live_of_head_eq_tail (s := (s.setTail s.head).respond .ack) hk rfl⟩,
    ⟨_, execLen_of_some hring, by simp [hlen], rfl⟩, ⟨_, rfl, rfl⟩,
    fun i hi => ⟨_, execItem_of_lt hi, rfl⟩⟩

end Sys2Proof.Machine
end

section
/-! SUPPORT. Who writes `head`, `tail` and the slots (R21, R22, R23), and that no step reads the last response (R20). -/

namespace Sys2Proof.Machine

open Sys2Proof.Claims

variable {s t : State} {i : Instr}

/-! ### The writers -/

/-- `head` is written by `PUSH` alone (R21). -/
theorem exec_writes_head (he : exec i s = .next t) (hne : t.head ≠ s.head) :
    (∃ x, i = .push x) ∧ t.head = adv s.cfg s.head := by
  cases i with
  | nop => cases he; exact absurd rfl hne
  | push x => obtain ⟨-, rfl⟩ := execPush_eq_next he; exact ⟨⟨x, rfl⟩, s.pushed_head⟩
  | pop => rcases execPop_eq_next he with ⟨-, rfl⟩ | ⟨t0, -, -, -, rfl⟩ <;> exact absurd rfl hne
  | clear => obtain ⟨-, rfl⟩ := execClear_eq_next he; exact absurd rfl hne
  | len => obtain ⟨t0, -, rfl⟩ := execLen_eq_next he; exact absurd rfl hne
  | item j => obtain ⟨-, rfl⟩ := execItem_eq_next he; exact absurd rfl hne

/-- The only `PUSH` that moves the tail is one that evicts, in a ring. -/
theorem State.Sound.pushed_writes_tail {x : Nat} (h : s.Sound) (hne : (s.pushed x).tail ≠ s.tail) :
    ∃ t0, s.tail = some t0 ∧ adv s.cfg s.head = t0 ∧ (s.pushed x).tail = some (adv s.cfg t0) := by
  cases hk : s.cfg.kind with
  | ring =>
    obtain ⟨t0, ht, -⟩ := s.tail_of_inRange_ring h.tail hk
    have htail := State.pushed_tail_ring (x := x) hk ht
    by_cases hfull : adv s.cfg s.head = t0
    · exact ⟨t0, ht, hfull, by rw [htail, if_pos hfull]⟩
    · exact absurd (by rw [htail, if_neg hfull, ht]) hne
  | manx => exact absurd (State.pushed_tail_manx hk) hne

/-- `tail` is written by an evicting `PUSH`, by a `POP` of a ring that is not empty and by `CLEAR` (R22). -/
theorem exec_writes_tail (h : s.Sound) (he : exec i s = .next t) (hne : t.tail ≠ s.tail) :
    ∃ t0, s.tail = some t0 ∧
      ((∃ x, i = .push x) ∧ adv s.cfg s.head = t0 ∧ t.tail = some (adv s.cfg t0) ∨
        i = .pop ∧ t0 ≠ s.head ∧ t.tail = some (adv s.cfg t0) ∨
        i = .clear ∧ t.tail = some s.head) := by
  cases i with
  | nop => cases he; exact absurd rfl hne
  | push x =>
    obtain ⟨-, rfl⟩ := execPush_eq_next he
    obtain ⟨t0, ht, hfull, htail⟩ := h.pushed_writes_tail hne
    exact ⟨t0, ht, .inl ⟨⟨x, rfl⟩, hfull, htail⟩⟩
  | pop =>
    rcases execPop_eq_next he with ⟨-, rfl⟩ | ⟨t0, ht, hhead, -, rfl⟩
    · exact absurd rfl hne
    · exact ⟨t0, (State.ringTail_eq_some.1 ht).2, .inr (.inl ⟨rfl, hhead, rfl⟩)⟩
  | clear =>
    obtain ⟨⟨t0, ht⟩, rfl⟩ := execClear_eq_next he
    exact ⟨t0, (State.ringTail_eq_some.1 ht).2, .inr (.inr ⟨rfl, rfl⟩)⟩
  | len => obtain ⟨t0, -, rfl⟩ := execLen_eq_next he; exact absurd rfl hne
  | item j => obtain ⟨-, rfl⟩ := execItem_eq_next he; exact absurd rfl hne

/-- A slot is written by the `PUSH` of what it then holds, at `head` (R23). -/
theorem exec_writes_slot {j : Nat} (h : s.Sound) (he : exec i s = .next t) (hne : t.slot j ≠ s.slot j) :
    j = s.head ∧ i = .push (t.slot j) := by
  cases i with
  | nop => cases he; exact absurd rfl hne
  | push x =>
    obtain ⟨-, rfl⟩ := execPush_eq_next he
    rw [State.pushed_slot h.canonical] at hne ⊢
    by_cases hj : j = s.head
    · exact ⟨hj, by rw [if_pos hj]⟩
    · exact absurd (if_neg hj) hne
  | pop => rcases execPop_eq_next he with ⟨-, rfl⟩ | ⟨t0, -, -, -, rfl⟩ <;> exact absurd rfl hne
  | clear => obtain ⟨-, rfl⟩ := execClear_eq_next he; exact absurd rfl hne
  | len => obtain ⟨t0, -, rfl⟩ := execLen_eq_next he; exact absurd rfl hne
  | item j => obtain ⟨-, rfl⟩ := execItem_eq_next he; exact absurd rfl hne

/-- A reset changes the tail of a ring alone, since a manx has none (R34). -/
theorem State.Sound.initial_tail_of_ne (h : s.Sound) (hne : (State.initial s.cfg).tail ≠ s.tail) :
    (State.initial s.cfg).tail = some 0 := by
  cases hk : s.cfg.kind with
  | ring => exact State.initial_tail_ring s.cfg hk
  | manx =>
    exact absurd ((State.initial_tail_manx s.cfg hk).trans (s.tail_of_inRange_manx h.tail hk).symm) hne

/-- Settles O32: what changed was written by the command the step ran, which the idle step's `NOP` is not, or by the
reset event. -/
theorem onlyTheNamedEventsWrite : Obligations.OnlyTheNamedEventsWrite := by
  intro s t h hs
  simp only [nextIndex_eq_adv]
  rcases step_next_cases hs with ⟨i, rest, hi, he⟩ | ⟨rest, hin, -, rfl⟩
  · have hsound : State.Sound { s with inputs := rest } := (h.withInputs rest).sound
    have presents (hnop : i ≠ .nop) : Presents s i := hi.resolve_left hnop
    refine ⟨(exec_keeps_cfg_inputs he).1, fun hne => .inr ?_, fun hne => .inr ?_, fun j hne => .inr ?_⟩
    · obtain ⟨⟨x, rfl⟩, hhead⟩ := exec_writes_head he hne
      exact ⟨⟨x, presents nofun⟩, hhead⟩
    · obtain ⟨t0, ht, ⟨⟨x, rfl⟩, hw⟩ | ⟨rfl, hw⟩ | ⟨rfl, hw⟩⟩ := exec_writes_tail hsound he hne
      · exact ⟨t0, ht, .inl ⟨⟨x, presents nofun⟩, hw⟩⟩
      · exact ⟨t0, ht, .inr (.inl ⟨presents nofun, hw⟩)⟩
      · exact ⟨t0, ht, .inr (.inr ⟨presents nofun, hw⟩)⟩
    · obtain ⟨hj, hpush⟩ := exec_writes_slot hsound he hne
      exact ⟨hj, hpush ▸ presents (by rw [hpush]; nofun)⟩
  · have hr : Resets s := ⟨rest, hin⟩
    exact ⟨rfl, fun _ => .inl ⟨hr, rfl⟩, fun hne => .inl ⟨hr, h.sound.initial_tail_of_ne hne⟩,
      fun j _ => .inl ⟨hr, rfl⟩⟩

/-! ### The response -/

/-- The eviction test reads no response. -/
theorem State.chaseTail_withResponse (r : Option Response) :
    ({ s with response := r } : State).chaseTail = { s.chaseTail with response := r } := by
  have hring : ({ s with response := r } : State).ringTail = s.ringTail := rfl
  unfold State.chaseTail
  rw [hring]
  cases s.ringTail with
  | none => rfl
  | some t0 => by_cases h : s.head = t0 <;> simp [h, State.setTail]

theorem State.pushed_withResponse (r : Option Response) (x : Nat) :
    ({ s with response := r } : State).pushed x = s.pushed x := by
  have h := congrArg (State.respond · .ack) (State.chaseTail_withResponse
    (s := State.advanceHead { s with buffer := Memory.write s.cfg.dflt s.buffer s.head x }) r)
  exact h

/-- Every command overwrites the response before anything could read it. -/
theorem exec_withResponse (i : Instr) (s : State) (r : Option Response) :
    exec i { s with response := r } = exec i s := by
  cases i with
  | push x =>
    by_cases hlt : s.head < s.cfg.capacity
    · exact (execPush_of_lt (s := { s with response := r }) hlt).trans
        ((congrArg _ (State.pushed_withResponse r x)).trans (execPush_of_lt hlt).symm)
    · simp [exec, execPush, pushAddress, memWrite, hlt]
  | nop => rfl
  | pop => rfl
  | clear => rfl
  | len => rfl
  | item j => rfl

/-- Settles O33: the fetch and the reset event do not read the response, and every command overwrites it. -/
theorem responseIsNeverRead : Obligations.ResponseIsNeverRead := by
  rintro ⟨c, h, t, b, inputs, q⟩ r
  match inputs with
  | [] => rfl
  | .reset :: _ => rfl
  | .present [] :: _ => rfl
  | .present [w] :: rest =>
    simp only [step, fetch, fetchWords, fetchWord]
    cases decode c w with
    | command i =>
      exact exec_withResponse i { cfg := c, head := h, tail := t, buffer := b, inputs := rest, response := q } r
    | _ => rfl
  | .present (_ :: _ :: _) :: _ => rfl

end Sys2Proof.Machine
end

section
/-! SUPPORT. The two accesses to the backing array (R41) on their domain. -/

namespace Sys2Proof.Machine

/-- Settles O20: in range both accesses complete, and the laws of the backing array say what the write left. -/
theorem memReadAndMemWrite : Obligations.MemReadAndMemWrite := by
  intro s i v h hi
  have hwf := h.sound.canonical
  refine ⟨fun k => memRead_of_lt hi, _, memWrite_of_lt hi, ?slot, ?others, rfl, rfl, rfl, rfl, rfl, ?canonical⟩
  case slot => exact Memory.read_write_same hwf
  case others => exact fun j hj => Memory.read_write_other hj
  case canonical => exact Memory.write_wf hwf

end Sys2Proof.Machine
end

section
/-! SUPPORT. The decoder's case table over the words of a command (R61 to R63, R71), and which words the encoder gives
back. -/

namespace Sys2Proof

variable {c : Config} {w : Nat} {i : Instr}

/-- Settles O2: an admitted command's word decodes to it, and the decoder gives no other commands. -/
theorem decodeEncodeRoundTrip : Obligations.DecodeEncodeRoundTrip := fun _ _ =>
  ⟨fun h => ⟨isBits_encode h, decode_encode h⟩, fun _ => wellFormed_of_decode⟩

/-- The operand field of a command word is all that stands above the operation code (R61). -/
theorem argField_of_lt (hw : w < 2 ^ c.wordWidth) : argField c w = w / 8 := by
  rw [Config.wordWidth, Nat.pow_add] at hw
  exact Nat.mod_eq_of_lt (by omega)

theorem ringOnly_eq_ite : ringOnly c i = if c.kind = .ring then .command i else .unsupported := by
  cases hk : c.kind <;> simp [ringOnly, hk]

/-- Settles O3: on a word of `3 + AW` bits the decoder is its own case table, over the fields `w % 8` and `w / 8`. -/
theorem decodeFollowsTheCaseTable : Obligations.DecodeFollowsTheCaseTable := by
  refine ⟨fun c w hw => ?_, rfl, fun _ => rfl, rfl, rfl, rfl, fun _ => rfl⟩
  have hbits : isBits c.wordWidth w = true := isBits_iff.2 hw
  rw [decode, if_pos hbits, argField_of_lt hw, opField]
  refine ⟨fun h => ?nop, fun h => ?push, fun h => ?pop, fun h => ?clear, fun h => ?len, fun h => ?item,
    fun h => ?op6, fun h => ?op7⟩ <;> rw [h]
  case nop | push | item | op6 | op7 => rfl
  case pop | clear | len => exact ringOnly_eq_ite

/-- A decoded command has the word's operation code, and of the word's operand what R63 does not ignore. -/
theorem fields_of_decode (h : decode c w = .command i) :
    opOf i = w % 8 ∧
      argOf i = if w % 8 = 1 then w / 8 % 2 ^ c.dw else if w % 8 = 5 then w / 8 else 0 := by
  unfold decode at h
  split at h
  case isFalse => cases h
  case isTrue hbits =>
    rw [argField_of_lt (isBits_iff.1 hbits)] at h
    unfold opField at h
    split at h
    case h_1 hop => cases h; simp [hop, opOf, argOf]
    case h_2 hop => cases h; simp [hop, opOf, argOf, elementOperand]
    case h_3 hop => obtain ⟨-, rfl⟩ := ringOnly_eq_command h; simp [hop, opOf, argOf]
    case h_4 hop => obtain ⟨-, rfl⟩ := ringOnly_eq_command h; simp [hop, opOf, argOf]
    case h_5 hop => obtain ⟨-, rfl⟩ := ringOnly_eq_command h; simp [hop, opOf, argOf]
    case h_6 hop => obtain ⟨-, rfl⟩ := itemCommand_eq_command h; simp [hop, opOf, argOf]
    case h_7 => cases h

/-- Encoding a decoded command gives the word back exactly when the whole operand was kept. -/
theorem encode_eq_iff_argOf (h : decode c w = .command i) : encode i = w ↔ argOf i = w / 8 := by
  obtain ⟨hop, -⟩ := fields_of_decode h
  rw [encode, hop]
  omega

/-- The operation codes 6 and 7 are no command's (R62). -/
theorem opOf_lt_six (i : Instr) : opOf i < 6 := by
  cases i <;> simp [opOf]

/-- Settles O4: the operand is kept whole for `ITEM`, its low `DW` bits for `PUSH`, and none of it otherwise. -/
theorem encodeDecodeIffIgnoredBitsZero : Obligations.EncodeDecodeIffIgnoredBitsZero := by
  intro c w i h
  obtain ⟨hop, harg⟩ := fields_of_decode h
  have hcommand := opOf_lt_six i
  rw [encode_eq_iff_argOf h, harg]
  by_cases h1 : w % 8 = 1
  · simp [h1, Nat.mod_eq_iff_lt]
  · by_cases h5 : w % 8 = 5
    · simp [h5]
    · rw [if_neg h1, if_neg h5]
      omega

end Sys2Proof
end

section
/-! SUPPORT. The response of each command, and the widths of its optional bit layout (R64). -/

namespace Sys2Proof.Machine

variable {s t : State} {i : Instr}

theorem Response.wires_rvalid_eq_false_iff (r : Response) :
    r.wires.rvalid = false ↔ r = .ack ∨ r = .popNone := by
  cases r <;> simp [Response.wires]

/-- A response in range fits the fields of the layout: an index or a count in `IW` bits, an element in `DW`. -/
theorem Response.wires_fit {c : Config} {r : Response} (h : r.inRange c = true) :
    r.wires.ridx < 2 ^ c.indexWidth ∧ r.wires.rdata < 2 ^ c.dw ∧ r.wires.rcount < 2 ^ c.indexWidth := by
  have hcap := capacity_le_two_pow_indexWidth c
  have hiw := Nat.two_pow_pos c.indexWidth
  have hdw := Nat.two_pow_pos c.dw
  cases r with
  | ack => exact ⟨hiw, hdw, hiw⟩
  | popNone => exact ⟨hiw, hdw, hiw⟩
  | popSome j e =>
    obtain ⟨hj, he⟩ : j < c.capacity ∧ e < 2 ^ c.dw := by simpa [Response.inRange] using h
    exact ⟨hj.trans_le hcap, he, hiw⟩
  | count n => exact ⟨hiw, hdw, (of_decide_eq_true h).trans_le hcap⟩
  | elem e => exact ⟨hiw, isBits_iff.1 h, hiw⟩

theorem execPop_response (he : execPop s = .next t) :
    ∃ t0, s.tail = some t0 ∧
      t.response = some (if t0 = s.head then .popNone else .popSome t0 (s.slot t0)) := by
  rcases execPop_eq_next he with ⟨ht, rfl⟩ | ⟨t0, ht, hne, -, rfl⟩
  · exact ⟨s.head, (State.ringTail_eq_some.1 ht).2, by simp⟩
  · exact ⟨t0, (State.ringTail_eq_some.1 ht).2, by simp [hne]⟩

theorem execLen_response (h : s.Sound) (he : execLen s = .next t) :
    t.response = some (.count s.live.length) ∧ s.live.length ≤ s.cfg.capacity - 1 := by
  obtain ⟨t0, hring, rfl⟩ := execLen_eq_next he
  obtain ⟨hk, ht⟩ := State.ringTail_eq_some.1 hring
  have hlt := h.tail_lt hk ht
  rw [State.length_live hk ht hlt]
  exact ⟨rfl, Nat.le_sub_one_of_lt (indexDist_lt h.head hlt)⟩

/-- Settles O30: an admitted command completes with a response in range, which its inversion lemma names. -/
theorem everyCommandAnswers : Obligations.EveryCommandAnswers := by
  intro s i h hw
  obtain ⟨t, he⟩ := exec_completes h hw
  obtain ⟨r, hr, hrange⟩ := exec_answers_inRange h he
  refine ⟨t, r, he, hr, ?_, r.wires_rvalid_eq_false_iff, Response.wires_fit hrange⟩
  have answer {r' : Response} (hr' : t.response = some r') : r = r' := Option.some.inj (hr.symm.trans hr')
  cases i with
  | nop => cases he; exact answer rfl
  | push x => obtain ⟨-, rfl⟩ := execPush_eq_next he; exact answer s.pushed_response
  | pop => obtain ⟨t0, ht, hresp⟩ := execPop_response he; exact ⟨t0, ht, answer hresp⟩
  | clear => obtain ⟨-, rfl⟩ := execClear_eq_next he; exact answer rfl
  | len => obtain ⟨hresp, hle⟩ := execLen_response h.sound he; exact ⟨answer hresp, hle⟩
  | item j => obtain ⟨-, rfl⟩ := execItem_eq_next he; exact answer rfl

end Sys2Proof.Machine
end

section
/-! SUPPORT. What the commands read of the parameters: the kind, the capacity and the default alone. Two configurations
alike in these answer every sequence of commands alike, whatever their modes (R82, R90, R128). -/

namespace Sys2Proof.Machine

/-- The configurations agree in all that a command reads of them. -/
structure Alike (c d : Config) : Prop where
  kind : d.kind = c.kind
  capacity : d.capacity = c.capacity
  dflt : d.dflt = c.dflt

variable {s t : State} {c d : Config} {i : Instr}

theorem Alike.symm (h : Alike c d) : Alike d c := ⟨h.kind.symm, h.capacity.symm, h.dflt.symm⟩

/-- Either mode advances an index in range by one modulo the capacity (R83). -/
theorem Alike.adv (h : Alike c d) {j : Nat} (hj : j < c.capacity) : adv d j = adv c j := by
  rw [adv_eq_mod hj, adv_eq_mod (h.capacity.symm ▸ hj), h.capacity]

/-! ### The state under other parameters -/

theorem State.Sound.ringTail_lt {t0 : Nat} (hs : s.Sound) (ht : s.ringTail = some t0) : t0 < s.cfg.capacity := by
  obtain ⟨hk, ht⟩ := State.ringTail_eq_some.1 ht
  exact hs.tail_lt hk ht

theorem State.ringTail_withCfg (h : Alike s.cfg d) : ({ s with cfg := d } : State).ringTail = s.ringTail := by
  simp only [State.ringTail, h.kind]

theorem State.slot_withCfg (h : Alike s.cfg d) : ({ s with cfg := d } : State).slot = s.slot := by
  funext j; simp only [State.slot, h.dflt]

theorem State.Sound.withCfg (hs : s.Sound) (h : Alike s.cfg d) : State.Sound { s with cfg := d } := by
  obtain ⟨hhead, htail, hwf⟩ := hs
  refine ⟨h.capacity.symm ▸ hhead, ?_, h.dflt.symm ▸ hwf⟩
  simpa only [State.tailInRange, h.kind, h.capacity] using htail

theorem State.chaseTail_withCfg (h : Alike s.cfg d) (htail : ∀ t0, s.ringTail = some t0 → t0 < s.cfg.capacity) :
    ({ s with cfg := d } : State).chaseTail = { s.chaseTail with cfg := d } := by
  unfold State.chaseTail
  rw [State.ringTail_withCfg h]
  cases ht : s.ringTail with
  | none => rfl
  | some t0 => by_cases he : s.head = t0 <;> simp [he, State.setTail, h.adv (htail t0 ht)]

theorem State.Sound.pushed_withCfg (hs : s.Sound) (h : Alike s.cfg d) (x : Nat) :
    ({ s with cfg := d } : State).pushed x = { s.pushed x with cfg := d } := by
  have hchase := State.chaseTail_withCfg (d := d)
    (s := State.advanceHead { s with buffer := Memory.write s.cfg.dflt s.buffer s.head x }) h fun _ => hs.ringTail_lt
  unfold State.pushed State.advanceHead
  rw [h.dflt, h.adv hs.head]
  exact congrArg (State.respond · .ack) hchase

/-! ### The commands under other parameters -/

/-- A command that goes on goes on alike. -/
theorem State.Sound.exec_withCfg (hs : s.Sound) (h : Alike s.cfg d) (he : Sys2Proof.Machine.exec i s = .next t) :
    Sys2Proof.Machine.exec i { s with cfg := d } = .next { t with cfg := d } := by
  have hring := State.ringTail_withCfg h
  have hslot := State.slot_withCfg h
  cases i with
  | nop => cases he; rfl
  | push x =>
    obtain ⟨-, rfl⟩ := execPush_eq_next he
    exact (execPush_of_lt (hs.withCfg h).head).trans (congrArg _ (hs.pushed_withCfg h x))
  | pop =>
    rcases execPop_eq_next he with ⟨ht, rfl⟩ | ⟨t0, ht, hne, hlt, rfl⟩
    · exact execPop_empty (hring.trans ht)
    · refine (execPop_some (hring.trans ht) hne (h.capacity.symm ▸ hlt)).trans ?_
      rw [hslot, h.adv hlt]
      rfl
  | clear =>
    obtain ⟨⟨t0, ht⟩, rfl⟩ := execClear_eq_next he
    exact execClear_of_some (hring.trans ht)
  | len =>
    obtain ⟨t0, ht, rfl⟩ := execLen_eq_next he
    refine (execLen_of_some (hring.trans ht)).trans ?_
    rw [h.capacity]
    rfl
  | item j =>
    obtain ⟨hlt, rfl⟩ := execItem_eq_next he
    refine (execItem_of_lt (h.capacity.symm ▸ hlt)).trans ?_
    rw [hslot]
    rfl

/-- A command that stops stops alike, since the parameters can be changed back. -/
theorem State.Sound.exec_withCfg_ne_next (hs : s.Sound) (h : Alike s.cfg d)
    (he : ∀ t, Sys2Proof.Machine.exec i s ≠ .next t) (u : State) :
    Sys2Proof.Machine.exec i { s with cfg := d } ≠ .next u :=
  fun hu => he _ ((hs.withCfg h).exec_withCfg h.symm hu)

theorem runCommands_cons_eq_none {is : List Instr} (he : ∀ t, exec i s ≠ .next t) :
    runCommands (i :: is) s = none := by
  unfold runCommands
  cases hr : exec i s with
  | next t => exact absurd hr (he t)
  | fault f => rfl
  | refused r => rfl

/-- Sequences of commands run alike, by induction on the commands. -/
theorem runCommands_withCfg (hs : s.Sound) (h : Alike s.cfg d) (is : List Instr) :
    runCommands is { s with cfg := d } = (runCommands is s).map fun out => (out.1, { out.2 with cfg := d }) := by
  induction is generalizing s with
  | nil => rfl
  | cons i is ih =>
    by_cases hgo : ∃ t, exec i s = .next t
    · obtain ⟨t, he⟩ := hgo
      obtain ⟨hcfg, -⟩ := exec_keeps_cfg_inputs he
      rw [runCommands_cons he, runCommands_cons (hs.exec_withCfg h he), ih (hs.exec he) (hcfg ▸ h), Option.map_map,
        Option.map_map]
      rfl
    · have hstop := not_exists.1 hgo
      rw [runCommands_cons_eq_none hstop, runCommands_cons_eq_none (hs.exec_withCfg_ne_next h hstop)]
      rfl

/-! ### The two modes at a power of two -/

/-- The reset values are sound as soon as there is a slot for the indices to name (R34). -/
theorem State.sound_initial (hc : 0 < c.capacity) : (State.initial c).Sound := by
  refine ⟨hc, ?_, rfl⟩
  cases hk : c.kind with
  | ring => exact State.tailInRange_ring hk (State.initial_tail_ring c hk) hc
  | manx => exact State.tailInRange_manx hk (State.initial_tail_manx c hk)

/-- An unchecked configuration differs from the checked one of its capacity in the mode alone. -/
theorem alike_checked {w : Width} (hm : c.mode = .unchecked w) :
    Alike c { c with mode := .checked (2 ^ w.bits) } :=
  ⟨rfl, (Config.capacity_unchecked hm).symm, rfl⟩

/-- The checked configuration of capacity `2^W` is legal where the limits, if enforced, admit that capacity (R6). -/
theorem legal_checked_two_pow {w : Width} (hc : c.isConfiguration = true)
    (hl : c.limitsEnforced = true → c.lowerLimit ≤ 2 ^ w.bits ∧ 2 ^ w.bits ≤ c.upperLimit) :
    ({ c with mode := .checked (2 ^ w.bits) } : Config).legal = true := by
  obtain ⟨-, hdw, hd⟩ := c.isConfiguration_iff.1 hc
  exact (Config.legal_checked_iff (c := { c with mode := .checked (2 ^ w.bits) }) hdw hd rfl).2
    ⟨Nat.two_pow_pos _, hl⟩

/-- Settles O45: the two configurations are alike, and no command reads the mode but through the advance of an index
in range. -/
theorem uncheckedIsCheckedAtPowerOfTwo : Obligations.UncheckedIsCheckedAtPowerOfTwo := by
  intro c w hm
  refine ⟨fun i hi => ?advances, fun cs => ?runs, fun hc hl => ?unlimited, fun hc hw hlo hup => ?defaultLimits⟩
  case advances => exact ⟨(advChk_eq_mod hi).trans (advWrap_eq_mod w i).symm, advWrap_eq_mod w i⟩
  case runs =>
    have hpos : 0 < c.capacity := by rw [Config.capacity_unchecked hm]; exact Nat.two_pow_pos _
    exact runCommands_withCfg (State.sound_initial hpos) (alike_checked hm) cs
  case unlimited => exact legal_checked_two_pow hc (by simp [hl])
  case defaultLimits => exact legal_checked_two_pow hc fun _ => by subst hw; simp [hlo, hup, Width.bits]

end Sys2Proof.Machine
end

section
/-! SUPPORT. The two advances on every number, the advance as one cycle through the slots, and the arithmetic of the
distance (R80, R81, R83, R84). -/

namespace Sys2Proof.Machine

variable {c : Config} {h t i j : Nat}

/-! ### The two advances -/

theorem advChk_of_le {n : Nat} (hi : n ≤ i) : advChk n i = 0 := if_pos (by omega)

/-- On the `W` bits of an index the wrapping advance is the increment itself (R81). -/
theorem advWrap_toNat (w : Width) (b : BitVec w.bits) : advWrap w b.toNat = (b + 1#w.bits).toNat := by
  rw [advWrap, BitVec.ofNat_toNat, BitVec.setWidth_eq]

/-- Settles O16: each advance in closed form, and the corner cases by evaluation. -/
theorem advanceFormulas : Obligations.AdvanceFormulas := by
  refine ⟨fun _ _ => rfl, fun n i hi => ?_, fun _ _ => advChk_of_le, rfl, rfl, rfl, advWrap_toNat,
    advWrap_eq_mod, rfl, rfl, rfl⟩
  rw [advChk_eq_mod hi]
  exact ⟨rfl, Nat.mod_lt _ (by omega)⟩

/-! ### One cycle -/

theorem adv_eq_zero_iff (hi : i < c.capacity) : adv c i = 0 ↔ i = c.capacity - 1 := by
  rw [adv_eq_ite hi]; split <;> omega

theorem adv_inj (hi : i < c.capacity) (hj : j < c.capacity) (he : adv c i = adv c j) : i = j := by
  rw [adv_eq_ite hi, adv_eq_ite hj] at he
  split_ifs at he <;> omega

/-- `N` advances lead back to where they began (R86). -/
theorem iterate_adv_capacity (hi : i < c.capacity) : (adv c)^[c.capacity] i = i := by
  rw [iterate_adv _ hi, Nat.add_mod_right, Nat.mod_eq_of_lt hi]

/-- Every slot is the next one of a slot: of the one that `N - 1` advances lead to. -/
theorem exists_adv_eq (hi : i < c.capacity) : ∃ j, j < c.capacity ∧ adv c j = i := by
  have hpred : (c.capacity - 1).succ = c.capacity := by omega
  refine ⟨(adv c)^[c.capacity - 1] i, ?_, ?_⟩
  · rw [iterate_adv _ hi]
    exact Nat.mod_lt _ (by omega)
  · rw [← Function.iterate_succ_apply' (adv c), hpred, iterate_adv_capacity hi]

/-- Settles O17: the advance is onto and one-to-one on the slots, and the distance to a slot is how many advances
reach it. -/
theorem advanceIsOneCycle : Obligations.AdvanceIsOneCycle := by
  intro c
  refine ⟨fun n hm => ?checked, fun w hm => ?unchecked, fun i hi =>
    ⟨adv_eq_mod hi, adv_lt hi, adv_eq_self_iff hi, adv_eq_zero_iff hi, ?preimage, fun j hj => ?reached⟩⟩
  case checked => funext i; rw [adv, hm]
  case unchecked => funext i; rw [adv, hm]
  case preimage =>
    obtain ⟨j, hj, hadv⟩ := exists_adv_eq hi
    exact ⟨j, hj, hadv, fun k hk hk' => adv_inj hk hj (hk'.trans hadv.symm)⟩
  case reached => exact ⟨indexDist c.capacity j i, indexDist_lt hj hi, iterate_adv_indexDist hj hi⟩

/-! ### The distance -/

theorem indexDist_eq_mod {n : Nat} (hh : h < n) (ht : t < n) : indexDist n h t = (h + n - t) % n := by
  unfold indexDist
  split
  · rw [Nat.mod_eq_of_lt (by omega), Nat.add_comm]
  · rw [show h + n - t = h - t + n by omega, Nat.add_mod_right, Nat.mod_eq_of_lt (by omega)]

/-- With `2^W` slots the distance is the `W`-bit subtraction (R84). -/
theorem indexDist_eq_sub_toNat (w : Width) (hh : h < 2 ^ w.bits) (ht : t < 2 ^ w.bits) :
    indexDist (2 ^ w.bits) h t = (BitVec.ofNat w.bits h - BitVec.ofNat w.bits t).toNat := by
  rw [indexDist_eq_mod hh ht, BitVec.toNat_sub, BitVec.toNat_ofNat, BitVec.toNat_ofNat, Nat.mod_eq_of_lt hh,
    Nat.mod_eq_of_lt ht]
  congr 1
  omega

/-- The intermediate sum of the distance needs one bit more than an index (R84). -/
theorem capacity_add_lt (hh : h < c.capacity) : c.capacity + h < 2 ^ (c.indexWidth + 1) := by
  have hcap := capacity_le_two_pow_indexWidth c
  rw [Nat.pow_succ]
  omega

/-- Settles O19, one law of the distance each. -/
theorem distanceLaws : Obligations.DistanceLaws := by
  intro c h t hh ht
  have hlt := indexDist_lt hh ht
  refine ⟨rfl, indexDist_eq_mod hh ht, Nat.le_sub_one_of_lt hlt, iterate_adv_indexDist hh ht,
    indexDist_eq_zero_iff ht, indexDist_eq_pred_iff hh ht, indexDist_adv_head hh ht, indexDist_adv_tail hh ht,
    fun w hm => ?unchecked, capacity_add_lt hh, hlt.trans_le (capacity_le_two_pow_indexWidth c)⟩
  case unchecked =>
    rw [Config.capacity_unchecked hm] at hh ht ⊢
    exact indexDist_eq_sub_toNat w hh ht

end Sys2Proof.Machine
end

section
/-! SUPPORT. Sequences of pushes, which advance `head` once each (R86), and the wrapping counter, which counts them in
an unchecked manx (R89). -/

namespace Sys2Proof.Machine

variable {s : State}

/-- The state after the pushes of `xs` in order. -/
def State.pushedAll (s : State) (xs : List Nat) : State := xs.foldl State.pushed s

@[simp] theorem State.pushedAll_nil : s.pushedAll [] = s := rfl
@[simp] theorem State.pushedAll_cons (x : Nat) (xs : List Nat) :
    s.pushedAll (x :: xs) = (s.pushed x).pushedAll xs := rfl

@[simp] theorem State.pushedAll_cfg (xs : List Nat) : (s.pushedAll xs).cfg = s.cfg := by
  induction xs generalizing s with
  | nil => rfl
  | cons x xs ih => rw [State.pushedAll_cons, ih, State.pushed_cfg]

theorem State.pushedAll_head (xs : List Nat) : (s.pushedAll xs).head = (adv s.cfg)^[xs.length] s.head := by
  induction xs generalizing s with
  | nil => rfl
  | cons x xs ih =>
    rw [State.pushedAll_cons, ih, State.pushed_cfg, State.pushed_head, List.length_cons, Function.iterate_succ_apply]

/-- From an index in range every push completes and answers `Ack`. -/
theorem runCommands_pushes (hs : s.head < s.cfg.capacity) (xs : List Nat) :
    runCommands (xs.map .push) s = some (List.replicate xs.length .ack, s.pushedAll xs) := by
  induction xs generalizing s with
  | nil => rfl
  | cons x xs ih =>
    have hhead : (s.pushed x).head < (s.pushed x).cfg.capacity := by simpa using adv_lt hs
    have he : exec (.push x) s = .next (s.pushed x) := execPush_of_lt hs
    rw [List.map_cons, runCommands_cons he, ih hhead]
    simp [List.replicate_succ]

/-- After the pushes of `xs` from reset, `head` is their number modulo the capacity. -/
theorem runCommands_pushes_initial {c : Config} (hc : c.legal = true) (xs : List Nat) :
    ∃ rs t, runCommands (xs.map .push) (State.initial c) = some (rs, t) ∧ t.head = xs.length % c.capacity := by
  have hpos := Config.capacity_pos_of_legal hc
  refine ⟨_, _, runCommands_pushes hpos xs, ?_⟩
  rw [State.pushedAll_head, State.initial_cfg, State.initial_head, iterate_adv _ hpos, Nat.zero_add]

/-- Settles O18, by the iterated advance and by one advance of `head` per push. -/
theorem repeatedAdvance : Obligations.RepeatedAdvance :=
  ⟨fun _ _ k hi => ⟨iterate_adv k hi, iterate_adv_capacity hi⟩, fun _ xs hc => runCommands_pushes_initial hc xs⟩

/-- The counter counts modulo `2^W` and keeps its width (R89). -/
theorem iterate_increment_reset (w : Width) (k : Nat) :
    Counter.increment^[k] (Counter.reset w) = { width := w, value := k % 2 ^ w.bits } := by
  induction k with
  | zero => simp [Counter.reset]
  | succ k ih =>
    rw [Function.iterate_succ_apply', ih, Counter.increment, advWrap_eq_mod, Nat.mod_add_mod]

/-- Settles O46: the counter and the `head` of the buffer both hold the number of pushes modulo `2^W`. -/
theorem wrappingCounter : Obligations.WrappingCounter := by
  refine ⟨fun w k => by simp [iterate_increment_reset], fun c w xs hc _ hm => ?_⟩
  obtain ⟨rs, t, hrun, hhead⟩ := runCommands_pushes_initial hc xs
  exact ⟨rs, t, hrun, by rw [hhead, iterate_increment_reset, Config.capacity_unchecked hm]⟩

end Sys2Proof.Machine
end

section
/-! SUPPORT. The two commands of every configuration, `NOP` (R87) and `ITEM` (R88), and `ITEM` over a list of slots. -/

namespace Sys2Proof.Machine

variable {s : State}

/-- Settles O21: the meaning of `NOP`, and the decoder's row for it, which ignores the operand. -/
theorem nopChangesNothing : Obligations.NopChangesNothing := by
  refine ⟨fun _ => rfl, fun c w hw => ?_⟩
  obtain ⟨hnop, -⟩ := decodeFollowsTheCaseTable.1 c w hw
  exact hnop

/-- Reading slots one after the other answers what they hold and changes the response alone. -/
theorem runCommands_items {is : List Nat} (h : ∀ i ∈ is, i < s.cfg.capacity) :
    ∃ r, runCommands (is.map .item) s = some (is.map fun i => .elem (s.slot i), { s with response := r }) := by
  induction is generalizing s with
  | nil => exact ⟨s.response, rfl⟩
  | cons i is ih =>
    obtain ⟨hi, his⟩ := List.forall_mem_cons.1 h
    obtain ⟨r, hr⟩ := ih (s := s.respond (.elem (s.slot i))) his
    have he : exec (.item i) s = .next (s.respond (.elem (s.slot i))) := execItem_of_lt hi
    refine ⟨r, ?_⟩
    rw [List.map_cons, runCommands_cons he, hr]
    rfl

/-- `ITEM 0` to `ITEM N-1` answer the whole array (R137). -/
theorem runCommands_itemsCommands (s : State) :
    ∃ r, runCommands (Assembly.itemsCommands s.cfg) s = some (s.items.map .elem, { s with response := r }) := by
  obtain ⟨r, hr⟩ := runCommands_items (s := s) (is := List.range s.cfg.capacity) fun _ => List.mem_range.1
  refine ⟨r, ?_⟩
  rw [Assembly.itemsCommands, hr, State.items, List.map_map]
  rfl

/-- Where the operand field is as wide as an index of `2^W` slots, every `ITEM` word names a slot (R88). -/
theorem decode_item_of_argWidth {c : Config} {w : Width} {cw : Nat} (hm : c.mode = .unchecked w)
    (ha : c.argWidth = w.bits) (hcw : cw < 2 ^ c.wordWidth) (hop : cw % 8 = 5) :
    decode c cw = .command (.item (cw / 8)) := by
  obtain ⟨-, -, -, -, -, hitem, -, -⟩ := decodeFollowsTheCaseTable.1 c cw hcw
  have hslot : cw / 8 < c.capacity := by
    rw [Config.wordWidth, Nat.pow_add, ha] at hcw
    rw [Config.capacity_unchecked hm]
    omega
  rw [hitem hop, if_pos hslot]

/-- Settles O27, by the two outcomes of `ITEM`, one read of every slot in order, and the range of the operand field. -/
theorem itemReadsOneSlot : Obligations.ItemReadsOneSlot := by
  refine ⟨fun s i => ⟨fun hi => ⟨rfl, execItem_of_lt hi⟩, execItem_of_ge⟩, fun s _ => ?_,
    fun c w cw => decode_item_of_argWidth⟩
  obtain ⟨r, hr⟩ := runCommands_itemsCommands s
  exact ⟨_, hr⟩

end Sys2Proof.Machine
end

section
/-! SUPPORT. A ring seen as its tail and its live sequence: the status values and `head` follow from these two, and
pushes put their elements behind the live ones and keep the last `N - 1` (R36, R106). -/

namespace Sys2Proof.Machine

variable {s : State} {t0 : Nat}

theorem State.Sound.length_eq_live (h : s.Sound) (hk : s.cfg.kind = .ring) : s.length = some s.live.length := by
  obtain ⟨t0, ht, hlt⟩ := s.tail_of_inRange_ring h.tail hk
  rw [State.length_ring hk ht, State.length_live hk ht hlt]

theorem State.Sound.live_length_le (h : s.Sound) (hk : s.cfg.kind = .ring) :
    s.live.length ≤ s.cfg.capacity - 1 := by
  obtain ⟨l, hl, hle⟩ := h.length_le hk
  rw [h.length_eq_live hk, Option.some_inj] at hl
  exact hl.trans_le hle

theorem State.Sound.adv_head_eq_tail_iff (h : s.Sound) (hk : s.cfg.kind = .ring) (ht : s.tail = some t0) :
    adv s.cfg s.head = t0 ↔ s.live.length = s.cfg.capacity - 1 := by
  have hlt := h.tail_lt hk ht
  rw [State.length_live hk ht hlt, indexDist_eq_pred_iff h.head hlt]

theorem State.Sound.tail_eq_head_iff (h : s.Sound) (hk : s.cfg.kind = .ring) (ht : s.tail = some t0) :
    t0 = s.head ↔ s.live = [] := by
  have hlt := h.tail_lt hk ht
  rw [← List.length_eq_zero_iff, State.length_live hk ht hlt, indexDist_eq_zero_iff hlt, eq_comm]

/-- The live elements lead from the tail to the head. -/
theorem State.Sound.head_eq (h : s.Sound) (hk : s.cfg.kind = .ring) (ht : s.tail = some t0) :
    s.head = (t0 + s.live.length) % s.cfg.capacity := by
  have hlt := h.tail_lt hk ht
  rw [State.length_live hk ht hlt, ← iterate_adv _ hlt, iterate_adv_indexDist h.head hlt]

/-- And back from the head to the tail. -/
theorem State.Sound.tail_eq (h : s.Sound) (hk : s.cfg.kind = .ring) :
    s.tail = some ((s.head + (s.cfg.capacity - s.live.length)) % s.cfg.capacity) := by
  obtain ⟨t0, ht, hlt⟩ := s.tail_of_inRange_ring h.tail hk
  have hle := h.live_length_le hk
  rw [h.head_eq hk ht, Nat.mod_add_mod, ht,
    show t0 + s.live.length + (s.cfg.capacity - s.live.length) = t0 + s.cfg.capacity by omega,
    Nat.add_mod_right, Nat.mod_eq_of_lt hlt]

/-- A `PUSH`, evicting or not, adds its element behind the live ones and keeps the last `N - 1`. -/
theorem State.Sound.live_pushed (h : s.Sound) (hk : s.cfg.kind = .ring) (x : Nat) :
    (s.pushed x).live = (s.live ++ [x]).drop (s.live.length + 1 - (s.cfg.capacity - 1)) := by
  obtain ⟨t0, ht, -⟩ := s.tail_of_inRange_ring h.tail hk
  have hle := h.live_length_le hk
  have hfull := h.adv_head_eq_tail_iff hk ht
  by_cases he : adv s.cfg s.head = t0
  · rw [h.live_pushed_of_full hk ht he, hfull.1 he, Nat.add_sub_cancel_left]
  · have hlt := lt_of_le_of_ne hle (mt hfull.2 he)
    rw [h.live_pushed_of_not_full hk ht he, Nat.sub_eq_zero_of_le hlt, List.drop_zero]

theorem State.Sound.setTail {v : Nat} (h : s.Sound) (hk : s.cfg.kind = .ring) (hv : v < s.cfg.capacity) :
    (s.setTail v).Sound := ⟨h.head, State.tailInRange_ring hk rfl hv, h.canonical⟩

theorem State.Sound.respond (h : s.Sound) (r : Response) : (s.respond r).Sound := ⟨h.head, h.tail, h.canonical⟩

theorem State.Sound.pushedAll (h : s.Sound) (xs : List Nat) : (s.pushedAll xs).Sound := by
  induction xs generalizing s with
  | nil => exact h
  | cons x xs ih => exact ih (h.pushed x)

/-- Any number of pushes likewise: of the live elements and the pushed ones the last `N - 1` stay live (R106). -/
theorem State.Sound.live_pushedAll (h : s.Sound) (hk : s.cfg.kind = .ring) (xs : List Nat) :
    (s.pushedAll xs).live = (s.live ++ xs).drop (s.live.length + xs.length - (s.cfg.capacity - 1)) := by
  induction xs generalizing s with
  | nil => simp [h.live_length_le hk]
  | cons x xs ih =>
    have hmid : (s.live ++ [x]).drop (s.live.length + 1 - (s.cfg.capacity - 1)) ++ xs =
        (s.live ++ x :: xs).drop (s.live.length + 1 - (s.cfg.capacity - 1)) := by
      rw [← List.drop_append_of_le_length (by simp), List.append_assoc, List.singleton_append]
    rw [State.pushedAll_cons, ih (h.pushed x) (State.pushed_kind hk x), h.live_pushed hk, State.pushed_cfg, hmid,
      List.drop_drop]
    congr 1
    rw [List.length_drop, List.length_append, List.length_singleton, List.length_cons]
    omega

end Sys2Proof.Machine
end

section
/-! SUPPORT. Two rings whose live sequences agree and whose tails lie a fixed number of slots apart answer every ring
command alike, but for the slot index of `Some` (R107). -/

namespace Sys2Proof.Machine

open Sys2Proof.Claims

variable {a b : State} {d : Nat}

/-- The ring `b` holds what the ring `a` holds, `d` slots further on. -/
structure Offset (d : Nat) (a b : State) : Prop where
  cfg : b.cfg = a.cfg
  ring : a.cfg.kind = .ring
  sound : a.Sound
  sound' : b.Sound
  live : b.live = a.live
  tail : ∃ k, a.tail = some k ∧ b.tail = some ((k + d) % a.cfg.capacity)

theorem Offset.ring' (h : Offset d a b) : b.cfg.kind = .ring := h.cfg ▸ h.ring

theorem Offset.head (h : Offset d a b) : b.head = (a.head + d) % a.cfg.capacity := by
  obtain ⟨k, hta, htb⟩ := h.tail
  rw [h.sound'.head_eq h.ring' htb, h.sound.head_eq h.ring hta, h.cfg, h.live, Nat.mod_add_mod, Nat.mod_add_mod,
    Nat.add_right_comm]

theorem adv_offset {c : Config} {k : Nat} (hk : k < c.capacity) (d : Nat) :
    adv c ((k + d) % c.capacity) = (adv c k + d) % c.capacity := by
  rw [adv_eq_mod hk, adv_eq_mod (Nat.mod_lt _ (by omega)), Nat.mod_add_mod, Nat.mod_add_mod, Nat.add_right_comm]

theorem Offset.pushed (h : Offset d a b) (x : Nat) : Offset d (a.pushed x) (b.pushed x) := by
  obtain ⟨k, hta, htb⟩ := h.tail
  have hfull : adv b.cfg b.head = (k + d) % a.cfg.capacity ↔ adv a.cfg a.head = k := by
    rw [h.sound'.adv_head_eq_tail_iff h.ring' htb, h.sound.adv_head_eq_tail_iff h.ring hta, h.live, h.cfg]
  refine ⟨by simp [h.cfg], State.pushed_kind h.ring x, h.sound.pushed x, h.sound'.pushed x, ?live, _,
    State.pushed_tail_ring h.ring hta, ?tail⟩
  case live => rw [h.sound'.live_pushed h.ring', h.sound.live_pushed h.ring, h.live, h.cfg]
  case tail =>
    rw [State.pushed_tail_ring h.ring' htb, State.pushed_cfg, if_congr hfull rfl rfl, h.cfg,
      adv_offset (h.sound.tail_lt h.ring hta)]
    split <;> rfl

theorem Offset.respond (h : Offset d a b) (r r' : Response) : Offset d (a.respond r) (b.respond r') :=
  ⟨h.cfg, h.ring, h.sound.respond r, h.sound'.respond r', h.live, h.tail⟩

theorem Offset.clear (h : Offset d a b) : Offset d (a.setTail a.head) (b.setTail b.head) := by
  have hlive := State.live_of_head_eq_tail (s := a.setTail a.head) h.ring rfl
  have hlive' := State.live_of_head_eq_tail (s := b.setTail b.head) h.ring' rfl
  exact ⟨h.cfg, h.ring, h.sound.setTail h.ring h.sound.head, h.sound'.setTail h.ring' h.sound'.head,
    hlive'.trans hlive.symm, _, rfl, congrArg some h.head⟩

section

variable {k : Nat} (hta : a.tail = some k) (htb : b.tail = some ((k + d) % a.cfg.capacity))
include hta htb

theorem Offset.tail_eq_head_iff (h : Offset d a b) : (k + d) % a.cfg.capacity = b.head ↔ k = a.head := by
  rw [h.sound'.tail_eq_head_iff h.ring' htb, h.sound.tail_eq_head_iff h.ring hta, h.live]

/-- Both oldest elements are the same, and so are the live sequences left when the tails have moved past them. -/
theorem Offset.pop (h : Offset d a b) (hne : k ≠ a.head) :
    b.slot ((k + d) % a.cfg.capacity) = a.slot k ∧
      Offset d (a.setTail (adv a.cfg k)) (b.setTail (adv b.cfg ((k + d) % a.cfg.capacity))) := by
  have hlt := h.sound.tail_lt h.ring hta
  have hlt' := h.sound'.tail_lt h.ring' htb
  have hlive := h.live
  rw [h.sound.live_eq_cons h.ring hta hne,
    h.sound'.live_eq_cons h.ring' htb (mt (h.tail_eq_head_iff hta htb).1 hne)] at hlive
  obtain ⟨hslot, hrest⟩ := List.cons.inj hlive
  refine ⟨hslot, h.cfg, h.ring, h.sound.setTail h.ring (adv_lt hlt), h.sound'.setTail h.ring' (adv_lt hlt'),
    hrest, _, rfl, ?_⟩
  rw [State.setTail_tail, h.cfg, adv_offset hlt]
  rfl

end

/-- Each ring command completes on both, keeps the offset, and answers alike. -/
theorem Offset.exec (h : Offset d a b) {i : Instr} (hi : isPush i = true ∨ i = .pop ∨ i = .clear ∨ i = .len) :
    ∃ a' b' r, exec i a = .next a' ∧ exec i b = .next b' ∧ Offset d a' b' ∧
      a'.response = some r ∧ b'.response = some (shiftIndex a.cfg.capacity d r) := by
  obtain ⟨k, hta, htb⟩ := h.tail
  have hring := State.ringTail_eq_some.2 ⟨h.ring, hta⟩
  have hring' := State.ringTail_eq_some.2 ⟨h.ring', htb⟩
  have hlt := h.sound.tail_lt h.ring hta
  have hlt' := h.sound'.tail_lt h.ring' htb
  have hsame := h.tail_eq_head_iff hta htb
  cases i with
  | push x =>
    exact ⟨_, _, .ack, execPush_of_lt h.sound.head, execPush_of_lt h.sound'.head, h.pushed x, a.pushed_response,
      b.pushed_response⟩
  | pop =>
    by_cases he : k = a.head
    · exact ⟨_, _, .popNone, execPop_empty (he ▸ hring), execPop_empty (hsame.2 he ▸ hring'),
        h.respond _ _, rfl, rfl⟩
    · obtain ⟨hslot, hpop⟩ := h.pop hta htb he
      exact ⟨_, _, _, execPop_some hring he hlt, execPop_some hring' (mt hsame.1 he) hlt', hpop.respond _ _, rfl,
        by rw [hslot]; rfl⟩
  | clear =>
    exact ⟨_, _, .ack, execClear_of_some hring, execClear_of_some hring', h.clear.respond _ _, rfl, rfl⟩
  | len =>
    refine ⟨_, _, _, execLen_of_some hring, execLen_of_some hring', h.respond _ _, rfl, ?_⟩
    rw [← State.length_live h.ring hta hlt, ← State.length_live h.ring' htb hlt', h.live]
    rfl
  | nop => simp [isPush] at hi
  | item j => simp [isPush] at hi

/-- Sequences of ring commands answer alike, by induction on the commands. -/
theorem Offset.runCommands (h : Offset d a b) {cs : List Instr}
    (hcs : ∀ i ∈ cs, isPush i = true ∨ i = .pop ∨ i = .clear ∨ i = .len) :
    ∃ rs a' b', runCommands cs a = some (rs, a') ∧
      runCommands cs b = some (rs.map (shiftIndex a.cfg.capacity d), b') ∧ Offset d a' b' ∧ a'.cfg = a.cfg := by
  induction cs generalizing a b with
  | nil => exact ⟨[], a, b, rfl, rfl, h, rfl⟩
  | cons i cs ih =>
    obtain ⟨hi, hcs⟩ := List.forall_mem_cons.1 hcs
    obtain ⟨a1, b1, r, hea, heb, h1, hra, hrb⟩ := h.exec hi
    obtain ⟨hcfg1, -⟩ := exec_keeps_cfg_inputs hea
    obtain ⟨rs, a', b', hruna, hrunb, h', hcfg⟩ := ih h1 hcs
    refine ⟨r :: rs, a', b', ?_, ?_, h', hcfg.trans hcfg1⟩
    · rw [runCommands_cons hea, hruna, hra]; rfl
    · rw [runCommands_cons heb, hrunb, hrb, hcfg1]; rfl

/-- Just after a `CLEAR` a ring is a fresh one, as many slots further on as `head` says. -/
theorem State.Inv.offset_clear {s : State} (h : s.Inv) (hk : s.cfg.kind = .ring) :
    Offset s.head (State.initial s.cfg) ((s.setTail s.head).respond .ack) := by
  have htail := State.initial_tail_ring s.cfg hk
  have hlive := State.live_of_head_eq_tail (s := s.setTail s.head) hk rfl
  have hlive0 := State.live_of_head_eq_tail (s := .initial s.cfg) hk htail
  refine ⟨rfl, hk, State.sound_initial h.capacity_pos, (h.sound.setTail hk h.sound.head).respond .ack,
    hlive.trans hlive0.symm, 0, htail, ?_⟩
  simp [Nat.mod_eq_of_lt h.sound.head]

/-- Settles O40: the cleared ring holds what the fresh one holds, `head` slots further on, and every command keeps it
so. -/
theorem clearedBehavesAsFresh : Obligations.ClearedBehavesAsFresh := by
  intro s s1 cs h hk hclear hcs
  obtain ⟨-, rfl⟩ := execClear_eq_next hclear
  obtain ⟨rs, t0, t1, hrun0, hrun1, hoff, hcfg⟩ := (h.offset_clear hk).runCommands hcs
  have hhead := hoff.head
  have htail := hoff.tail
  rw [hcfg] at hhead htail
  exact ⟨rs, t0, t1, hrun0, hrun1, hhead, htail⟩

end Sys2Proof.Machine
end

section
/-! SUPPORT. The four ring commands, each with its effect, its answer and its frame (R101 to R104, R121 to R124), and
the degenerate capacity (R111). -/

namespace Sys2Proof.Machine

variable {s t : State} {t0 : Nat}

theorem State.Sound.head_not_mem_liveSlots (h : s.Sound) (hk : s.cfg.kind = .ring) : s.head ∉ s.liveSlots := by
  obtain ⟨t0, ht, hlt⟩ := s.tail_of_inRange_ring h.tail hk
  rw [State.liveSlots, State.ringTail_ring s hk, ht]
  exact head_not_mem_slotsFrom h.head hlt

/-- A `PUSH` makes one more element live, as far as `N - 1` allow. -/
theorem State.Sound.length_pushed (h : s.Sound) (hk : s.cfg.kind = .ring) (x : Nat) :
    (s.pushed x).length = s.length.map fun l => min (l + 1) (s.cfg.capacity - 1) := by
  rw [h.length_eq_live hk, (h.pushed x).length_eq_live (State.pushed_kind hk x), h.live_pushed hk, Option.map_some,
    List.length_drop, List.length_append, List.length_singleton]
  congr 1
  omega

/-- Settles O22, from the parts of the state after a `PUSH`. -/
theorem pushOnRing : Obligations.PushOnRing := by
  intro s t0 x h hk ht
  have htail := State.pushed_tail_ring (x := x) hk ht
  have hfull := (h.sound.pushed x).full_iff_length (State.pushed_kind hk x)
  rw [State.pushed_cfg] at hfull
  simp only [nextIndex_eq_adv]
  exact ⟨_, execPush_of_lt h.sound.head, rfl, State.pushed_slot h.sound.canonical, s.pushed_head, htail,
    s.pushed_response, s.pushed_cfg, s.pushed_inputs, fun hN => h.sound.pushed_empty hk hN x,
    h.sound.length_pushed hk x, hfull, h.sound.head_not_mem_liveSlots hk⟩

/-- A `POP` of a ring that is not empty makes one element less live. -/
theorem State.Sound.length_popped (h : s.Sound) (hk : s.cfg.kind = .ring) (ht : s.tail = some t0)
    (hne : t0 ≠ s.head) :
    ∃ l, s.length = some (l + 1) ∧ (s.setTail (adv s.cfg t0)).length = some l := by
  have hdist := indexDist_adv_tail h.head (h.tail_lt hk ht) hne.symm
  exact ⟨_, (State.length_ring hk ht).trans (congrArg some hdist.symm),
    State.length_ring (s := s.setTail (adv s.cfg t0)) hk rfl⟩

/-- After a `POP` of a ring that is not empty the next `PUSH` does not evict, since the advance is one-to-one. -/
theorem State.Sound.full_popped (h : s.Sound) (hk : s.cfg.kind = .ring) (ht : s.tail = some t0)
    (hne : t0 ≠ s.head) : (s.setTail (adv s.cfg t0)).full = some false := by
  have hadv : adv s.cfg s.head ≠ adv s.cfg t0 := fun he => hne (adv_inj h.head (h.tail_lt hk ht) he).symm
  rw [State.full_ring (s := s.setTail (adv s.cfg t0)) hk rfl]
  simpa using hadv

/-- Settles O24, by whether the tail has reached the head. -/
theorem popOnRing : Obligations.PopOnRing := by
  intro s t0 h hk ht
  have hring := State.ringTail_eq_some.2 ⟨hk, ht⟩
  simp only [nextIndex_eq_adv]
  refine ⟨fun he => execPop_empty (he ▸ hring), fun hne => ?_⟩
  obtain ⟨l, hlen, hlen'⟩ := h.sound.length_popped hk ht hne
  refine ⟨_, l, execPop_some hring hne (h.sound.tail_lt hk ht), hring, rfl, rfl, rfl, fun _ => rfl, rfl, rfl, hlen,
    hlen', h.sound.full_popped hk ht hne, ?_⟩
  rw [respond_empty, State.setTail_empty hk, Bool.beq_comm]

/-- Settles O25, from the status values of a ring with equal indices. -/
theorem clearOnRing : Obligations.ClearOnRing := by
  intro s h hk
  obtain ⟨t0, hring, -, -⟩ := h.ringTail_ring hk
  refine ⟨_, execClear_of_some hring, rfl, rfl, fun _ => rfl, rfl, rfl, rfl, ?empty, ?length, fun hN => ?full⟩
  case empty => simp [State.setTail_empty hk]
  case length => exact (State.length_ring (s := s.setTail s.head) hk rfl).trans (by simp [indexDist])
  case full =>
    have hmoves : adv s.cfg s.head ≠ s.head := mt (adv_eq_self_iff h.sound.head).1 (by omega)
    exact (State.full_ring (s := s.setTail s.head) hk rfl).trans (by simpa using hmoves)

/-- Settles O26, from the laws of the distance (R84). -/
theorem lenOnRing : Obligations.LenOnRing := by
  intro s t0 h hk ht
  have hhead := h.sound.head
  have hlt := h.sound.tail_lt hk ht
  refine ⟨_, execLen_of_some (State.ringTail_eq_some.2 ⟨hk, ht⟩), fun n hm => ?checked, fun w hm => ?unchecked,
    (indexDist_eq_zero_iff hlt).2, fun hfull => ?full, indexDist_lt hhead hlt, State.length_ring hk ht⟩
  case checked => rw [Config.capacity_checked hm, indexDist]
  case unchecked =>
    rw [Config.capacity_unchecked hm] at hhead hlt ⊢
    exact ⟨rfl, indexDist_eq_sub_toNat w hhead hlt⟩
  case full => exact (indexDist_eq_pred_iff hhead hlt).2 ((State.full_eq_true_iff hk ht).1 hfull)

/-- Settles O43: the only slot is slot 0, and the advance stays on it. -/
theorem degenerateCapacityOne : Obligations.DegenerateCapacityOne := by
  intro s h hk hm
  have hcap := Config.capacity_checked hm
  obtain ⟨t0, hring, ht, hlt⟩ := h.ringTail_ring hk
  have hhead : s.head = 0 := by have := h.sound.head; omega
  obtain rfl : t0 = 0 := by omega
  have hadv : adv s.cfg 0 = 0 := (adv_eq_self_iff hlt).2 hcap
  have hpush (x : Nat) : (s.pushed x).slot 0 = x := by rw [State.pushed_slot h.sound.canonical, if_pos hhead.symm]
  refine ⟨?limits, hhead, ht, (State.empty_eq_true_iff hk ht).2 hhead,
    (State.full_eq_true_iff hk ht).2 (by rw [hhead, hadv]),
    fun x => ⟨_, execPush_of_lt h.sound.head, ?head, ?tail, ?item⟩, execPop_empty (hhead ▸ hring), ?len⟩
  case limits =>
    have hbounds := (Config.capacityOutOfBounds_checked_eq_false_iff hm).1 (Config.legal_iff.1 h.1).2
    cases hl : s.cfg.limitsEnforced with
    | false => exact .inl rfl
    | true => exact .inr (hbounds hl).1
  case head => rw [State.pushed_head, hhead, hadv]
  case tail => rw [State.pushed_tail_ring hk ht, hadv, ite_self]
  case item => exact (execItem_of_lt (by rwa [State.pushed_cfg])).trans (by rw [hpush]; rfl)
  case len => exact (execLen_of_some hring).trans (by rw [(indexDist_eq_zero_iff hlt).2 hhead]; rfl)

end Sys2Proof.Machine
end

section
/-! SUPPORT. Rings over many pushes and pops: filling, overwriting, the round trip and emptiness (R106,
R108 to R110). -/

namespace Sys2Proof.Machine

variable {s t : State} {t0 : Nat}

/-! ### Pushes into an empty ring -/

theorem State.Sound.live_eq_nil_iff_empty (h : s.Sound) (hk : s.cfg.kind = .ring) :
    s.live = [] ↔ s.empty = some true := by
  obtain ⟨t0, ht, -⟩ := s.tail_of_inRange_ring h.tail hk
  rw [State.empty_eq_true_iff hk ht, eq_comm (a := s.head), h.tail_eq_head_iff hk ht]

theorem State.pushedAll_kind (hk : s.cfg.kind = .ring) (xs : List Nat) : (s.pushedAll xs).cfg.kind = .ring := by
  rwa [State.pushedAll_cfg]

/-- Of the elements pushed into an empty ring the last `N - 1` are live. -/
theorem State.Sound.live_pushedAll_of_empty (h : s.Sound) (hk : s.cfg.kind = .ring) (he : s.empty = some true)
    (xs : List Nat) : (s.pushedAll xs).live = xs.drop (xs.length - (s.cfg.capacity - 1)) := by
  rw [h.live_pushedAll hk, (h.live_eq_nil_iff_empty hk).2 he, List.nil_append, List.length_nil, Nat.zero_add]

theorem State.Sound.head_pushedAll (h : s.Sound) (xs : List Nat) :
    (s.pushedAll xs).head = (s.head + xs.length) % s.cfg.capacity := by
  rw [State.pushedAll_head, iterate_adv _ h.head]

theorem State.Sound.length_pushedAll_of_empty (h : s.Sound) (hk : s.cfg.kind = .ring) (he : s.empty = some true)
    (xs : List Nat) : (s.pushedAll xs).length = some (min xs.length (s.cfg.capacity - 1)) := by
  rw [(h.pushedAll xs).length_eq_live (State.pushedAll_kind hk xs), h.live_pushedAll_of_empty hk he, List.length_drop]
  congr 1
  omega

/-- The tail stays as long as there is room, and then lies one slot past the head (R108). -/
theorem State.Sound.tail_pushedAll_of_empty (h : s.Sound) (hk : s.cfg.kind = .ring) (he : s.empty = some true)
    (xs : List Nat) :
    (xs.length ≤ s.cfg.capacity - 1 → (s.pushedAll xs).tail = some s.head) ∧
      (xs.length ≥ s.cfg.capacity →
        (s.pushedAll xs).tail = some ((s.head + (xs.length + 1)) % s.cfg.capacity)) := by
  have hhead := h.head
  have htail := (h.pushedAll xs).tail_eq (State.pushedAll_kind hk xs)
  rw [h.live_pushedAll_of_empty hk he, List.length_drop, State.pushedAll_cfg, h.head_pushedAll, Nat.mod_add_mod,
    Nat.add_assoc] at htail
  refine ⟨fun hle => ?room, fun hge => ?none⟩
  case room =>
    rw [htail, show xs.length + (s.cfg.capacity - (xs.length - (xs.length - (s.cfg.capacity - 1)))) = s.cfg.capacity by
      omega, Nat.add_mod_right, Nat.mod_eq_of_lt hhead]
  case none =>
    rw [htail, show s.cfg.capacity - (xs.length - (xs.length - (s.cfg.capacity - 1))) = 1 by omega]

/-- Settles O36: `head` counts the pushes, of which the last `N - 1` are live. -/
theorem fillingFromReset : Obligations.FillingFromReset := by
  intro c xs hc hk
  have hpos := Config.capacity_pos_of_legal hc
  have hsound := State.sound_initial hpos
  have hlen := hsound.length_pushedAll_of_empty hk (initial_empty hk) xs
  obtain ⟨hroom, hnone⟩ := hsound.tail_pushedAll_of_empty hk (initial_empty hk) xs
  have hhead := hsound.head_pushedAll xs
  have hfull := (hsound.pushedAll xs).full_iff_length (State.pushedAll_kind hk xs)
  simp only [State.pushedAll_cfg, State.initial_cfg, State.initial_head, Nat.zero_add] at hlen hroom hnone hhead hfull
  refine ⟨_, _, runCommands_pushes hsound.head xs, hhead, fun hle => ⟨hroom hle, ?lengthBelow⟩,
    fun heq => ⟨?headAtLast, hfull.2 ?lengthAtLast⟩, fun hge => ⟨hnone hge, ?lengthBeyond⟩⟩
  case lengthBelow => rw [hlen, min_eq_left hle]
  case headAtLast => rw [hhead, heq, Nat.mod_eq_of_lt (by omega)]
  case lengthAtLast => rw [hlen, heq, min_self]
  case lengthBeyond => rw [hlen, min_eq_right (by omega)]

/-- Settles O38: the `PUSH` drops the first live element, and a `POP` answers the first that is left. -/
theorem overwriteOldest : Obligations.OverwriteOldest := by
  refine ⟨fun s x h hk hN hfull => ?_, fun s xs h hk he _ =>
    ⟨_, _, runCommands_pushes h.sound.head xs, h.sound.live_pushedAll_of_empty hk he xs⟩⟩
  obtain ⟨t0, ht, -⟩ := s.tail_of_inRange_ring h.sound.tail hk
  have hevicts := (State.full_eq_true_iff hk ht).1 hfull
  have hlen := (h.sound.adv_head_eq_tail_iff hk ht).1 hevicts
  have hlive := h.sound.live_pushed_of_full hk ht hevicts x
  rw [List.drop_append_of_le_length (by omega)] at hlive
  obtain ⟨e, q, hq⟩ : ∃ e q, s.live.drop 1 ++ [x] = e :: q := List.exists_cons_of_ne_nil (by simp)
  have htail := State.pushed_tail_ring (x := x) hk ht
  obtain ⟨u, hpop, -, -, hsome⟩ := exec_pop_queue (h.sound.pushed x) (State.pushed_kind hk x) htail
  exact ⟨_, u, _, e, execPush_of_lt h.sound.head, s.pushed_response, hlive, hpop, hsome e q (hlive.trans hq),
    by rw [hq]; rfl⟩

/-! ### Pops -/

/-- `POP` until the ring is empty and once more: the live elements in order, from consecutive slots, and `None`. -/
theorem State.Sound.runCommands_pops {xs : List Nat} (h : s.Sound) (hk : s.cfg.kind = .ring)
    (ht : s.tail = some t0) (hlive : s.live = xs) :
    ∃ t, runCommands (List.replicate xs.length .pop ++ [.pop]) s =
      some (xs.mapIdx (fun k x => .popSome ((t0 + k) % s.cfg.capacity) x) ++ [.popNone], t) := by
  have hring := State.ringTail_eq_some.2 ⟨hk, ht⟩
  induction xs generalizing s t0 with
  | nil =>
    have he := (h.tail_eq_head_iff hk ht).2 hlive
    exact ⟨_, runCommands_cons (i := .pop) (execPop_empty (he ▸ hring))⟩
  | cons x xs ih =>
    have hne : t0 ≠ s.head := mt (h.tail_eq_head_iff hk ht).1 (by simp [hlive])
    have hlt := h.tail_lt hk ht
    obtain ⟨hslot, hrest⟩ := List.cons.inj ((h.live_eq_cons hk ht hne).symm.trans hlive)
    obtain ⟨t, hrun⟩ := ih (s := (s.setTail (adv s.cfg t0)).respond (.popSome t0 (s.slot t0)))
      ((h.setTail hk (adv_lt hlt)).respond _) hk rfl hrest (State.ringTail_eq_some.2 ⟨hk, rfl⟩)
    refine ⟨t, ?_⟩
    rw [List.length_cons, List.replicate_succ, List.cons_append,
      runCommands_cons (i := .pop) (execPop_some hring hne hlt), hrun, List.mapIdx_cons, hslot]
    simp [adv_eq_mod hlt, Nat.mod_eq_of_lt hlt, Nat.add_assoc, Nat.add_comm 1]

/-- Settles O41: the pushes make the whole sequence live from the old head on, and the pops empty the ring. -/
theorem pushedSequenceIsPoppedInOrder : Obligations.PushedSequenceIsPoppedInOrder := by
  intro s xs h hk he hle
  have hsound := h.sound.pushedAll xs
  have hk' := State.pushedAll_kind hk xs
  have hlive := h.sound.live_pushedAll_of_empty hk he xs
  rw [Nat.sub_eq_zero_of_le hle, List.drop_zero] at hlive
  have htail := (h.sound.tail_pushedAll_of_empty hk he xs).1 hle
  obtain ⟨t, hpops⟩ := hsound.runCommands_pops hk' htail hlive
  refine ⟨t, ?_⟩
  rw [List.append_assoc, runCommands_append, runCommands_pushes h.sound.head, Option.bind_some, hpops,
    State.pushedAll_cfg, List.append_assoc]
  rfl

/-- A ring with equal indices answers every further `POP` with `None` (R110). -/
theorem runCommands_pops_empty (hring : s.ringTail = some s.head) (hr : s.response = some .popNone) (k : Nat) :
    runCommands (List.replicate k .pop) s = some (List.replicate k .popNone, s) := by
  have hself : s.respond .popNone = s := by rw [State.respond, ← hr]
  have hpop : exec .pop s = .next s := (execPop_empty hring).trans (by rw [hself])
  induction k with
  | zero => rfl
  | succ k ih => rw [List.replicate_succ, runCommands_cons hpop, ih, hr]; rfl

/-- Settles O42: a `POP` answers `None` where the indices are equal, and then changes neither. -/
theorem emptinessIsStable : Obligations.EmptinessIsStable := by
  refine ⟨fun s t k he hr => ?stays, fun c _ hk => ?fresh, fun s t hk he => ?cleared⟩
  case stays =>
    rcases execPop_eq_next he with ⟨hring, rfl⟩ | ⟨t0, -, -, -, rfl⟩
    · exact ⟨rfl, runCommands_pops_empty (s := s.respond .popNone) hring rfl k⟩
    · simp at hr
  case fresh =>
    exact ⟨_, execPop_empty (State.ringTail_eq_some.2 ⟨hk, State.initial_tail_ring c hk⟩), rfl⟩
  case cleared =>
    obtain ⟨-, rfl⟩ := execClear_eq_next he
    exact ⟨_, execPop_empty (State.ringTail_eq_some.2 ⟨hk, rfl⟩), rfl⟩

end Sys2Proof.Machine
end

section
/-! SUPPORT. The wraparound boundary: the push that fills the last slot of an empty ring evicts the first element
pushed (R127). -/

namespace Sys2Proof.Machine

variable {s : State}

/-- After `N` pushes into an empty ring the next `POP` answers the second element pushed, from the slot it went to. -/
theorem exec_pop_after_capacity_pushes {xs : List Nat} (h : s.Sound) (hk : s.cfg.kind = .ring)
    (he : s.empty = some true) (hN : s.cfg.capacity ≥ 2) (hlen : xs.length = s.cfg.capacity) :
    ∃ e u, xs[1]? = some e ∧ exec .pop (s.pushedAll xs) = .next u ∧
      u.response = some (.popSome ((s.head + 1) % s.cfg.capacity) e) := by
  have hlive := h.live_pushedAll_of_empty hk he xs
  have htail := (h.tail_pushedAll_of_empty hk he xs).2 hlen.ge
  rw [hlen, Nat.sub_sub_self (by omega), List.drop_eq_getElem_cons (by omega)] at hlive
  rw [hlen, Nat.add_left_comm, Nat.add_mod_left] at htail
  obtain ⟨u, hpop, -, -, hsome⟩ := exec_pop_queue (h.pushedAll xs) (State.pushedAll_kind hk xs) htail
  exact ⟨_, u, List.getElem?_eq_getElem _, hpop, hsome _ _ hlive⟩

/-- Settles O37: the filling of a ring from reset (R108) at one push below, at and beyond its capacity `2^W`. -/
theorem uncheckedWraparoundBoundary : Obligations.UncheckedWraparoundBoundary := by
  intro c w xs hc hk hm
  have hcap := Config.capacity_unchecked hm
  have hlarge : 2 < c.capacity := by rcases w.two_pow_bits with hw | hw <;> omega
  have hsound := State.sound_initial (c := c) (by omega)
  obtain ⟨rs, t, hrun, hhead, hroom, hlast, hbeyond⟩ := fillingFromReset c xs hc hk
  obtain ⟨-, rfl⟩ := Prod.ext_iff.1 (Option.some.inj (hrun.symm.trans (runCommands_pushes hsound.head xs)))
  rw [← hcap]
  refine ⟨rs, _, hrun, fun hbelow => ?below, fun hat => ?reached, fun hpast => ?past⟩
  case below =>
    obtain ⟨htail, hlength⟩ := hroom hbelow.le
    obtain ⟨hheadLast, hfull⟩ := hlast hbelow
    exact ⟨hheadLast, htail, hbelow ▸ hlength, hfull⟩
  case reached =>
    obtain ⟨htail, hlength⟩ := hbeyond hat.ge
    rw [hat, Nat.mod_self] at hhead
    rw [hat, Nat.add_mod_left, Nat.mod_eq_of_lt (by omega)] at htail
    have hpop := exec_pop_after_capacity_pushes hsound hk (initial_empty hk) hlarge.le hat
    rw [State.initial_head, State.initial_cfg, Nat.zero_add, Nat.mod_eq_of_lt (by omega)] at hpop
    exact ⟨hhead, htail, hlength, hpop⟩
  case past =>
    obtain ⟨htail, -⟩ := hbeyond (by omega)
    rw [hpast, Nat.add_mod_left, Nat.mod_eq_of_lt (by omega)] at hhead
    rw [hpast, Nat.add_assoc, Nat.add_mod_left, Nat.mod_eq_of_lt hlarge] at htail
    exact ⟨hhead, htail⟩

end Sys2Proof.Machine
end

section
/-! SUPPORT. A manx under one command: `PUSH` writes and moves on (R136, R146), and what needs a tail is refused (R139,
R150). -/

namespace Sys2Proof.Machine

variable {s : State}

/-- Settles O23, from the parts of the state after a `PUSH`. -/
theorem pushOnManx : Obligations.PushOnManx := by
  intro s x h hk
  have htail := (State.pushed_tail_manx (x := x) hk).trans (s.tail_of_inRange_manx h.sound.tail hk)
  have hstatus := State.no_status_manx (s := s.pushed x) (by rwa [State.pushed_cfg])
  simp only [nextIndex_eq_adv]
  exact ⟨_, execPush_of_lt h.sound.head, rfl, State.pushed_slot h.sound.canonical, s.pushed_head, htail,
    s.pushed_response, s.pushed_cfg, s.pushed_inputs, hstatus⟩

theorem execPop_of_none (h : s.ringTail = none) : execPop s = .refused .unsupportedCommand := by
  simp [execPop, popAddress, h]

theorem execClear_of_none (h : s.ringTail = none) : execClear s = .refused .unsupportedCommand := by
  simp [execClear, h]

theorem execLen_of_none (h : s.ringTail = none) : execLen s = .refused .unsupportedCommand := by
  simp [execLen, h]

/-- A step whose word the decoder calls unsupported is refused (R66). -/
theorem step_of_decode_unsupported {w : Nat} {rest : List HostEvent} (hi : s.inputs = .present [w] :: rest)
    (hd : decode s.cfg w = .unsupported) : step s = .refused .unsupportedCommand := by
  simp [step, fetch, hi, fetchWords, fetchWord, hd]

/-- The three rows of the decoder that need a tail (R65, R71), in a manx. -/
theorem decode_unsupported_of_manx {c : Config} {w : Nat} (hk : c.kind = .manx) (hw : w < 2 ^ c.wordWidth)
    (hop : w % 8 = 2 ∨ w % 8 = 3 ∨ w % 8 = 4) : decode c w = .unsupported := by
  have hring : c.kind ≠ .ring := by simp [hk]
  obtain ⟨-, -, hpop, hclear, hlen, -⟩ := decodeFollowsTheCaseTable.1 c w hw
  rcases hop with hop | hop | hop
  · rw [hpop hop, if_neg hring]
  · rw [hclear hop, if_neg hring]
  · rw [hlen hop, if_neg hring]

/-- Settles O28: the three meanings find no tail, and the decoder refuses their words. -/
theorem manxRefusesTailCommands : Obligations.ManxRefusesTailCommands := by
  intro s hk
  have hnone := State.ringTail_manx s hk
  exact ⟨execPop_of_none hnone, execClear_of_none hnone, execLen_of_none hnone,
    fun w rest hi hw hop => step_of_decode_unsupported hi (decode_unsupported_of_manx hk hw hop)⟩

end Sys2Proof.Machine
end

section
/-! SUPPORT. The whole array (R137). -/

namespace Sys2Proof.Machine

variable {s : State}

theorem State.items_getElem? {i : Nat} (hi : i < s.cfg.capacity) : s.items[i]? = some (s.slot i) := by
  simp [State.items, hi]

theorem initial_items (c : Config) : (State.initial c).items = List.replicate c.capacity c.dflt := by
  simp [State.items, List.eq_replicate_iff]

/-- Settles O49: `ITEM 0` to `ITEM N-1` answer the slots in storage order, each of which holds `DEFAULT` at reset. -/
theorem itemsAreTheWholeArray : Obligations.ItemsAreTheWholeArray := by
  refine ⟨fun s _ => ⟨by simp [State.items], fun _ => State.items_getElem?, ?_⟩, fun c _ => initial_items c⟩
  obtain ⟨r, hrun⟩ := runCommands_itemsCommands s
  exact ⟨_, hrun, rfl⟩

end Sys2Proof.Machine
end

section
/-! SUPPORT. The slots after many pushes: each of the last `N` elements stands in the slot `head` pointed at, every slot
not reached is as before, and pushes of `DEFAULT` leave the reset values (R140, R141, R149). -/

namespace Sys2Proof.Machine

variable {s : State}

/-! ### What one slot holds (R140, R149) -/

theorem State.pushedAll_concat (xs : List Nat) (x : Nat) :
    s.pushedAll (xs ++ [x]) = (s.pushedAll xs).pushed x := by simp [State.pushedAll]

/-- The last of several pushes writes the slot the others have moved `head` to. -/
theorem State.Sound.slot_pushedAll_concat (h : s.Sound) (xs : List Nat) (x j : Nat) :
    (s.pushedAll (xs ++ [x])).slot j =
      if j = (s.head + xs.length) % s.cfg.capacity then x else (s.pushedAll xs).slot j := by
  rw [State.pushedAll_concat, State.pushed_slot (h.pushedAll xs).canonical, h.head_pushedAll]

/-- A slot that no push reached is as before. -/
theorem State.Sound.slot_pushedAll_of_not_reached {j : Nat} (h : s.Sound) (xs : List Nat)
    (hj : ∀ p < xs.length, j ≠ (s.head + p) % s.cfg.capacity) : (s.pushedAll xs).slot j = s.slot j := by
  induction xs using List.reverseRecOn with
  | nil => rfl
  | append_singleton xs x ih =>
    simp only [List.length_append, List.length_singleton] at hj
    rw [h.slot_pushedAll_concat, if_neg (hj _ (by omega)), ih fun p hp => hj p (by omega)]

/-- Fewer than `N` steps do not lead back to the same slot. -/
theorem add_mod_ne_of_lt {n i p q : Nat} (hpq : p < q) (hq : q < p + n) : (i + p) % n ≠ (i + q) % n := by
  intro he
  have hdiff : (i + q - (i + p)) % n = 0 := Nat.sub_mod_eq_zero_of_mod_eq he.symm
  rw [Nat.mod_eq_of_lt (by omega)] at hdiff
  omega

/-- Each of the last `N` elements pushed is still in the slot it was pushed to (R140, R141). -/
theorem State.Sound.slot_pushedAll_of_recent {xs : List Nat} {p : Nat} (h : s.Sound) (hp : p < xs.length)
    (hrecent : xs.length ≤ p + s.cfg.capacity) :
    xs[p]? = some ((s.pushedAll xs).slot ((s.head + p) % s.cfg.capacity)) := by
  induction xs using List.reverseRecOn with
  | nil => simp at hp
  | append_singleton xs x ih =>
    rw [List.length_append, List.length_singleton] at hp hrecent
    rw [h.slot_pushedAll_concat]
    obtain rfl | hlt := Nat.eq_or_lt_of_le (Nat.le_of_lt_succ hp)
    · rw [if_pos rfl, List.getElem?_concat_length]
    · rw [if_neg (add_mod_ne_of_lt hlt (by omega)), List.getElem?_append_left hlt, ih hlt (by omega)]

/-- Settles O47: a slot no push reached holds the reset value, and the last push to a slot is one of the last `N`. -/
theorem manxContentsAfterPushes : Obligations.ManxContentsAfterPushes := by
  intro c xs hc _
  have hpos := Config.capacity_pos_of_legal hc
  have hsound := State.sound_initial hpos
  have hhead := hsound.head_pushedAll xs
  rw [State.initial_head, Nat.zero_add, State.initial_cfg] at hhead
  refine ⟨_, _, runCommands_pushes hpos xs, hhead,
    fun j hj => ⟨fun hle => ?notReached, fun p h1 hp hslot hlast => ?last⟩⟩
  case notReached =>
    refine (hsound.slot_pushedAll_of_not_reached xs fun p hp => ?_).trans (initial_slot c j)
    rw [State.initial_head, Nat.zero_add, State.initial_cfg, Nat.mod_eq_of_lt (by omega)]
    omega
  case last =>
    have hrecent : xs.length ≤ p - 1 + c.capacity := by
      by_contra hlt
      refine hlast (p + c.capacity) (by omega) (by omega) ?_
      rw [Nat.sub_add_comm h1, Nat.add_mod_right, hslot]
    have hget := hsound.slot_pushedAll_of_recent (p := p - 1) (by omega) hrecent
    rwa [State.initial_head, Nat.zero_add, State.initial_cfg, hslot] at hget

/-! ### The order of the elements (R141) -/

/-- The slots the last `l` of the pushes went to hold their elements, as long as `l` is at most `N`. -/
theorem State.Sound.map_slot_pushedAll {xs : List Nat} {l : Nat} (h : s.Sound) (hlen : l ≤ xs.length)
    (hcap : l ≤ s.cfg.capacity) :
    ((List.range l).map fun k => (s.pushedAll xs).slot ((s.head + (xs.length - l + k)) % s.cfg.capacity)) =
      xs.drop (xs.length - l) := by
  refine List.ext_getElem? fun k => ?_
  rw [List.getElem?_drop]
  by_cases hk : k < l
  · rw [h.slot_pushedAll_of_recent (xs := xs) (by omega) (by omega)]
    simp [hk]
  · rw [List.getElem?_eq_none (by simpa using hk), List.getElem?_eq_none (by omega)]

/-- From `head` round, a buffer of at least `N` pushes holds the last `N` elements. -/
theorem State.Sound.chronological_pushedAll {xs : List Nat} (h : s.Sound) (hlen : s.cfg.capacity ≤ xs.length) :
    (s.pushedAll xs).chronological = xs.drop (xs.length - s.cfg.capacity) := by
  have hround (k : Nat) : ((s.head + xs.length) % s.cfg.capacity + k) % s.cfg.capacity =
      (s.head + (xs.length - s.cfg.capacity + k)) % s.cfg.capacity := by
    rw [Nat.mod_add_mod, ← Nat.add_mod_right (s.head + (xs.length - s.cfg.capacity + k))]
    congr 1
    omega
  rw [State.chronological, slotsFrom_eq_map _ (h.pushedAll xs).head, List.map_map, State.pushedAll_cfg,
    h.head_pushedAll, ← h.map_slot_pushedAll hlen le_rfl]
  exact List.map_congr_left fun k _ => congrArg (s.pushedAll xs).slot (hround k)

/-- After fewer than `N` pushes from reset, the slots below `head` hold all elements pushed. -/
theorem slots_below_head_pushedAll_initial {c : Config} {xs : List Nat} (hlen : xs.length < c.capacity) :
    (List.range ((State.initial c).pushedAll xs).head).map ((State.initial c).pushedAll xs).slot = xs := by
  have hsound := State.sound_initial (c := c) (by omega)
  have hall := hsound.map_slot_pushedAll le_rfl hlen.le
  rw [Nat.sub_self, List.drop_zero] at hall
  rw [hsound.head_pushedAll, State.initial_head, State.initial_cfg, Nat.zero_add, Nat.mod_eq_of_lt hlen]
  refine (List.map_congr_left fun k hk => congrArg _ ?_).trans hall
  have hk := List.mem_range.1 hk
  rw [State.initial_head, State.initial_cfg, Nat.zero_add, Nat.zero_add, Nat.mod_eq_of_lt (by omega)]

/-! ### Pushes of the default -/

/-- `DEFAULT` pushed into a manx that holds nothing else moves `head` on and writes nothing. -/
theorem State.pushed_dflt_manx (hk : s.cfg.kind = .manx) (hb : s.buffer = []) :
    s.pushed s.cfg.dflt = s.advanceHead.respond .ack := by
  have hwrite : ({ s with buffer := Memory.write s.cfg.dflt s.buffer s.head s.cfg.dflt } : State) = s := by
    rw [hb, Memory.write, if_pos rfl, ← hb]
  rw [State.pushed, hwrite, State.chaseTail_manx s.advanceHead hk]

theorem State.pushedAll_dflt_manx (hk : s.cfg.kind = .manx) (hb : s.buffer = []) (k : Nat) :
    s.pushedAll (List.replicate (k + 1) s.cfg.dflt) = (s.setHead ((adv s.cfg)^[k + 1] s.head)).respond .ack := by
  induction k generalizing s with
  | zero => exact State.pushed_dflt_manx hk hb
  | succ k ih =>
    rw [List.replicate_succ, State.pushedAll_cons, State.pushed_dflt_manx hk hb]
    exact ih (s := s.advanceHead.respond .ack) hk hb

/-- `N` pushes of `DEFAULT` lead `head` round to where it was. -/
theorem State.pushedAll_dflt_capacity (hk : s.cfg.kind = .manx) (hb : s.buffer = []) (hh : s.head < s.cfg.capacity) :
    s.pushedAll (List.replicate s.cfg.capacity s.cfg.dflt) = s.respond .ack := by
  obtain ⟨k, hcap⟩ : ∃ k, s.cfg.capacity = k + 1 := ⟨s.cfg.capacity - 1, by omega⟩
  rw [hcap, State.pushedAll_dflt_manx hk hb, ← hcap, iterate_adv_capacity hh]
  rfl

/-- Settles O48: the last `N` elements, or all of fewer, stand in the slots they were pushed to, and pushes of `DEFAULT`
write nothing. -/
theorem manxChronologicalOrder : Obligations.ManxChronologicalOrder := by
  intro c xs hc hk
  have hpos := Config.capacity_pos_of_legal hc
  have hsound := State.sound_initial hpos
  refine ⟨⟨_, _, runCommands_pushes hpos xs, hsound.chronological_pushedAll, slots_below_head_pushedAll_initial⟩,
    ?defaults⟩
  case defaults =>
    have hrun := runCommands_pushes (s := State.initial c) hpos (List.replicate c.capacity c.dflt)
    have hback := State.pushedAll_dflt_capacity (s := State.initial c) hk rfl hpos
    rw [State.initial_cfg] at hback
    rw [List.map_replicate, hback] at hrun
    exact ⟨_, hrun⟩

end Sys2Proof.Machine
end

section
/-! SUPPORT. What can fail (R155, R156): a command only by an access outside the slots (R41), construction only where
the capacity is out of bounds. -/

namespace Sys2Proof

variable {c : Config}

/-- The condition of R156 in the parameters. -/
theorem Config.capacityOutOfBounds_iff :
    c.capacityOutOfBounds = true ↔
      ∃ n, c.mode = .checked n ∧ c.limitsEnforced = true ∧ (n < c.lowerLimit ∨ n > c.upperLimit) := by
  cases hm : c.mode with
  | checked n => simp [Config.capacityOutOfBounds, hm]
  | unchecked w => simp [Config.capacityOutOfBounds, hm]

/-- A configuration constructs unless its capacity is out of bounds (R6, R156). -/
theorem Machine.new_eq_none_iff (hc : c.isConfiguration = true) :
    Machine.State.new c = none ↔ c.capacityOutOfBounds = true := by
  simp [Machine.State.new, Config.legal, hc]

namespace Machine

open Sys2Proof.Claims

variable {s : State} {f : Fault} {rest : List HostEvent}

theorem andThen_eq_fault {r : Result} {k : State → Result} (h : andThen r k = .fault f) :
    r = .fault f ∨ ∃ t, r = .next t ∧ k t = .fault f := by
  cases r with
  | next t => exact .inr ⟨t, rfl, h⟩
  | fault e => exact .inl h
  | refused e => cases h

theorem memRead_eq_fault {i : Nat} {k : Nat → Result} (h : memRead i s k = .fault f) :
    f = .noSuchSlot i ∨ k (s.slot i) = .fault f := by
  unfold memRead at h
  split at h
  · exact .inr h
  · cases h; exact .inl rfl

theorem memWrite_eq_fault {i x : Nat} (h : memWrite i x s = .fault f) : f = .noSuchSlot i := by
  unfold memWrite at h
  split at h <;> cases h
  rfl

theorem execPop_eq_fault (h : execPop s = .fault f) : ∃ j, f = .noSuchSlot j := by
  unfold execPop at h
  split at h
  · cases h
  · split at h
    · exact ⟨_, (memRead_eq_fault h).resolve_right nofun⟩
    · cases h

theorem execClear_ne_fault : execClear s ≠ .fault f := by
  cases ht : s.ringTail with
  | none => simp [execClear_of_none ht]
  | some t0 => simp [execClear_of_some ht]

theorem execLen_ne_fault : execLen s ≠ .fault f := by
  cases ht : s.ringTail with
  | none => simp [execLen_of_none ht]
  | some t0 => simp [execLen_of_some ht]

/-- `ITEM` refuses an index beyond the slots before it reads (R88). -/
theorem execItem_ne_fault {i : Nat} : execItem i s ≠ .fault f := by
  by_cases hi : i < s.cfg.capacity
  · simp [execItem_of_lt hi]
  · simp [execItem_of_ge (Nat.not_lt.1 hi)]

/-- A command fails, if at all, by an access outside the slots. -/
theorem exec_eq_fault {i : Instr} (h : exec i s = .fault f) : ∃ j, f = .noSuchSlot j := by
  cases i with
  | nop => cases h
  | push x =>
    rcases andThen_eq_fault h with hw | ⟨t, -, hk⟩
    · exact ⟨_, memWrite_eq_fault hw⟩
    · cases hk
  | pop => exact execPop_eq_fault h
  | clear => exact absurd h execClear_ne_fault
  | len => exact absurd h execLen_ne_fault
  | item j => exact absurd h execItem_ne_fault

theorem resetEvent_eq_fault_iff :
    resetEvent s = .fault .capacityOutOfBounds ↔ s.cfg.capacityOutOfBounds = true := by
  unfold resetEvent
  split_ifs with hout <;> simp [hout]

/-- The step in which the host applies the reset event constructs again (R175). -/
theorem step_of_reset (hi : s.inputs = .reset :: rest) :
    step s = resetEvent { s with inputs := rest } := by
  rw [step, fetch, hi]

/-- Only the reset event raises the construction failure. -/
theorem resets_of_step_eq_fault (h : step s = .fault .capacityOutOfBounds) : Resets s := by
  unfold step at h
  cases hf : fetch s with
  | run i u =>
    rw [hf] at h
    obtain ⟨j, hj⟩ := exec_eq_fault h
    cases hj
  | reset u => obtain ⟨rest, hi, -⟩ := fetch_reset_cases hf; exact ⟨rest, hi⟩
  | refuse r => rw [hf] at h; cases h

/-- Settles O8: commands fail by a slot access alone, the reset event and `new` under the condition of R156. -/
theorem onlyConstructionFails : Obligations.OnlyConstructionFails := by
  refine ⟨fun s => ?step, fun c hc => ?new⟩
  case new => exact (new_eq_none_iff hc).trans Config.capacityOutOfBounds_iff
  case step =>
    rw [← Config.capacityOutOfBounds_iff]
    have reset_fails : Resets s →
        (step s = .fault .capacityOutOfBounds ↔ s.cfg.capacityOutOfBounds = true) := by
      rintro ⟨rest, hi⟩
      rw [step_of_reset hi, resetEvent_eq_fault_iff]
    exact ⟨fun h => have hr := resets_of_step_eq_fault h; ⟨hr, (reset_fails hr).1 h⟩,
      fun ⟨hr, hout⟩ => (reset_fails hr).2 hout⟩

end Machine
end Sys2Proof
end

section
/-! SUPPORT. The refusals of the command interface (R66, R160): what the decoder's verdict, and the number of words
presented, come to. -/

namespace Sys2Proof

variable {c : Config} {w : Nat}

/-- Each verdict that is no command, by the operation code of a command word (R71). -/
theorem decode_verdict_iff (hw : w < 2 ^ c.wordWidth) :
    (decode c w = .reserved ↔ w % 8 = 6 ∨ w % 8 = 7) ∧
    (decode c w = .unsupported ↔ c.kind = .manx ∧ (w % 8 = 2 ∨ w % 8 = 3 ∨ w % 8 = 4)) ∧
    (decode c w = .outOfRange ↔ w % 8 = 5 ∧ c.capacity ≤ w / 8) ∧
    decode c w ≠ .notAWord := by
  obtain ⟨hnop, hpush, hpop, hclear, hlen, hitem, h6, h7⟩ := decodeFollowsTheCaseTable.1 c w hw
  have hop : w % 8 = 0 ∨ w % 8 = 1 ∨ w % 8 = 2 ∨ w % 8 = 3 ∨ w % 8 = 4 ∨ w % 8 = 5 ∨ w % 8 = 6 ∨ w % 8 = 7 := by
    omega
  rcases hop with hop | hop | hop | hop | hop | hop | hop | hop
  · simp [hnop hop, hop]
  · simp [hpush hop, hop]
  · cases hk : c.kind <;> simp [hpop hop, hk, hop]
  · cases hk : c.kind <;> simp [hclear hop, hk, hop]
  · cases hk : c.kind <;> simp [hlen hop, hk, hop]
  · by_cases hlt : w / 8 < c.capacity
    · simp [hitem hop, hlt, hop]
    · simp [hitem hop, hlt, hop, Nat.not_lt.1 hlt]
  · simp [h6 hop, hop]
  · simp [h7 hop, hop]

namespace Machine

/-- The refusal a verdict comes to (R66, R71). -/
def refusalOf : Verdict → Option Refusal
  | .command _ => none
  | .unsupported => some .unsupportedCommand
  | .outOfRange => some .indexOutOfRange
  | .reserved => some .reservedCommand
  | .notAWord => some .notACommandWord

/-- The refusal the words presented in one step come to (R160). -/
def presentedRefusal (c : Config) : List Nat → Option Refusal
  | [] => none
  | [w] => refusalOf (decode c w)
  | _ :: _ :: _ => some .concurrentCommands

variable {s : State} {ws : List Nat} {rest : List HostEvent} {r : Refusal}

/-- From the invariant the interface refuses and nothing else does: a command that was decoded completes. -/
theorem step_present_eq_refused_iff (h : s.Inv) (hi : s.inputs = .present ws :: rest) :
    step s = .refused r ↔ presentedRefusal s.cfg ws = some r := by
  match ws with
  | [] => simp [step_of_present_nil hi, presentedRefusal]
  | [w] =>
    cases hd : decode s.cfg w with
    | command i =>
      obtain ⟨t, ht⟩ := exec_completes (h.withInputs rest) (wellFormed_of_decode hd)
      simp [step_of_decode hi hd, ht, presentedRefusal, refusalOf, hd]
    | _ => simp [step, fetch, hi, fetchWords, fetchWord, presentedRefusal, refusalOf, hd]
  | _ :: _ :: _ => simp [step, fetch, hi, fetchWords, presentedRefusal]

/-- Settles O29: the step refuses what the words presented come to, and a single word what its verdict comes to. -/
theorem refusalsOfTheInterface : Obligations.RefusalsOfTheInterface := by
  intro s ws rest h hi hw
  simp only [step_present_eq_refused_iff h hi]
  match ws with
  | [] => simp [presentedRefusal]
  | _ :: _ :: _ => simp [presentedRefusal]
  | [w] =>
    obtain ⟨hres, hunsup, hrange, hword⟩ := decode_verdict_iff (hw w (by simp))
    simp only [List.cons.injEq, and_true, exists_eq_left', ← hres, ← hunsup, ← hrange]
    rw [presentedRefusal]
    cases hd : decode s.cfg w with
    | notAWord => exact absurd hd hword
    | _ => simp [refusalOf]

end Machine
end Sys2Proof
end

section
/-! SUPPORT. The reset event (R175, R177), equal indices in any state of a ring (R184), and how long a slot keeps its
element: until `head` has come round to it (R180). -/

namespace Sys2Proof.Machine

open Sys2Proof.Claims

variable {s t u : State} {i : Instr} {cs : List Instr} {rs : List Response} {j : Nat}

/-- Settles O7: the step constructs again under legal parameters and fails under the condition of R156. -/
theorem resetEventConstructsAgain : Obligations.ResetEventConstructsAgain := by
  intro s rest hi
  rw [step_of_reset hi]
  refine ⟨fun hc => ?_, fun n hm hl hn => ?_⟩
  · exact ⟨_, resetEvent_of_legal hc, rfl, rfl, State.initial_tail_ring _, State.initial_tail_manx _,
      initial_slot _, rfl, rfl⟩
  · exact resetEvent_eq_fault_iff.2 (Config.capacityOutOfBounds_iff.2 ⟨n, hm, hl, hn⟩)

/-- Settles O35: the three answers are functions of the indices, and their distance is 0. -/
theorem equalIndicesReadAsEmpty : Obligations.EqualIndicesReadAsEmpty := by
  intro s hk ht
  have hring := State.ringTail_eq_some.2 ⟨hk, ht⟩
  have hdist : indexDist s.cfg.capacity s.head s.head = 0 := by simp [indexDist]
  exact ⟨execPop_empty hring, hdist ▸ execLen_of_some hring, State.live_of_head_eq_tail hk ht⟩

/-! ### The lifetime of a slot (R180) -/

/-- There and back is once round the ring. -/
theorem indexDist_add_indexDist {n a b : Nat} (ha : a < n) (hb : b < n) (hne : a ≠ b) :
    indexDist n a b + indexDist n b a = n := by
  unfold indexDist
  split_ifs <;> omega

theorem runCommands_cons_eq_some (h : runCommands (i :: cs) s = some (rs, u)) :
    ∃ t rs', exec i s = .next t ∧ runCommands cs t = some (rs', u) := by
  by_cases he : ∃ t, exec i s = .next t
  · obtain ⟨t, he⟩ := he
    rw [runCommands_cons he, Option.map_eq_some_iff] at h
    obtain ⟨⟨rs', u'⟩, hrun, heq⟩ := h
    cases heq
    exact ⟨t, rs', he, hrun⟩
  · rw [runCommands_cons_eq_none (not_exists.1 he)] at h
    cases h

theorem runCommands_keeps_sound_cfg (h : s.Sound) (hrun : runCommands cs s = some (rs, u)) :
    u.Sound ∧ u.cfg = s.cfg := by
  induction cs generalizing s rs with
  | nil => cases hrun; exact ⟨h, rfl⟩
  | cons i cs ih =>
    obtain ⟨t, rs', he, hrun⟩ := runCommands_cons_eq_some hrun
    obtain ⟨hu, hcfg⟩ := ih (h.exec he) hrun
    exact ⟨hu, hcfg.trans (exec_keeps_cfg_inputs he).1⟩

/-- A command that does not `PUSH` to slot `j` keeps the slot, and `head` comes one slot nearer to it with a `PUSH`
alone. -/
theorem exec_slot_and_indexDist (h : s.Sound) (hj : j < s.cfg.capacity) (he : exec i s = .next t)
    (hi : isPush i = true → j ≠ s.head) :
    t.slot j = s.slot j ∧
      indexDist s.cfg.capacity j t.head + (if isPush i then 1 else 0) = indexDist s.cfg.capacity j s.head := by
  constructor
  · by_contra hne
    obtain ⟨hhead, hpush⟩ := exec_writes_slot h he hne
    exact hi (hpush ▸ rfl) hhead
  · cases hp : isPush i with
    | true =>
      have hmoved : t.head = adv s.cfg s.head := by
        cases i with
        | push x => obtain ⟨-, rfl⟩ := execPush_eq_next he; exact s.pushed_head
        | _ => cases hp
      rw [hmoved]
      exact indexDist_adv_tail hj h.head (hi hp)
    | false =>
      have hstays : t.head = s.head := by
        by_contra hne
        obtain ⟨⟨x, rfl⟩, -⟩ := exec_writes_head he hne
        cases hp
      simp [hstays]

/-- A slot is kept by as many pushes as `head` is away from it, whatever commands stand between them. -/
theorem runCommands_slot_and_indexDist (h : s.Sound) (hj : j < s.cfg.capacity)
    (hrun : runCommands cs s = some (rs, u)) (hcs : cs.countP isPush ≤ indexDist s.cfg.capacity j s.head) :
    u.slot j = s.slot j ∧
      indexDist s.cfg.capacity j u.head + cs.countP isPush = indexDist s.cfg.capacity j s.head := by
  induction cs generalizing s rs with
  | nil => cases hrun; exact ⟨rfl, rfl⟩
  | cons i cs ih =>
    obtain ⟨t, rs', he, hrun⟩ := runCommands_cons_eq_some hrun
    obtain ⟨hcfg, -⟩ := exec_keeps_cfg_inputs he
    rw [List.countP_cons] at hcs ⊢
    have hi : isPush i = true → j ≠ s.head := by
      intro hp hhead
      rw [if_pos hp, (indexDist_eq_zero_iff h.head).2 hhead] at hcs
      omega
    obtain ⟨hslot, hdist⟩ := exec_slot_and_indexDist h hj he hi
    obtain ⟨hslot', hdist'⟩ := ih (h.exec he) (hcfg ▸ hj) hrun (by rw [hcfg]; omega)
    rw [hcfg] at hdist'
    exact ⟨hslot'.trans hslot, by omega⟩

/-- Settles O44: each `PUSH` brings `head` one slot nearer to the popped one, and the `PUSH` that finds it there
overwrites it. -/
theorem poppedSlotLifetime : Obligations.PoppedSlotLifetime := by
  intro s idx h hk ht hne
  have hlt := h.sound.tail_lt hk ht
  have hround := indexDist_add_indexDist h.sound.head hlt hne.symm
  have hless := indexDist_lt h.sound.head hlt
  have hpopped := (h.sound.setTail hk (adv_lt hlt)).respond (.popSome idx (s.slot idx))
  refine ⟨by omega, fun hfull => ?full, fun hone => ?oneLive, _,
    execPop_some (State.ringTail_eq_some.2 ⟨hk, ht⟩) hne hlt, rfl,
    fun cs rs u hrun => ⟨fun hcs => ?kept, fun x hcs => ?overwritten⟩⟩
  case full =>
    rw [h.sound.full_iff_length hk, State.length_ring hk ht, Option.some_inj] at hfull
    omega
  case oneLive =>
    rw [State.length_ring hk ht, Option.some_inj] at hone
    omega
  case kept => exact (runCommands_slot_and_indexDist hpopped hlt hrun hcs).1
  case overwritten =>
    obtain ⟨hu, hcfg⟩ := runCommands_keeps_sound_cfg hpopped hrun
    obtain ⟨-, hdist⟩ := runCommands_slot_and_indexDist hpopped hlt hrun hcs.le
    have hzero := Nat.add_eq_right.1 (hdist.trans hcs.symm)
    have hhead : idx = u.head := (indexDist_eq_zero_iff (hcfg ▸ hu.head)).1 hzero
    exact ⟨hhead.symm, _, execPush_of_lt hu.head, by rw [State.pushed_slot hu.canonical, if_pos hhead]⟩

end Sys2Proof.Machine
end

section
/-! SUPPORT. The sample command words of the test vectors (sections 2.4 and 2.8). -/

namespace Sys2Proof

/-- Settles O1: five of the words are the encoder's own; in three more the decoder ignores operand bits that are set
(R63), and five meet its verdicts (R71). -/
theorem sampleWordsDecode : Obligations.SampleWordsDecode := by
  refine ⟨?nop, decode_encode (i := .push 255) rfl, ?pop, decode_encode (i := .clear) rfl,
    decode_encode (i := .len) rfl, decode_encode (i := .item 9) rfl, ?beyond, ?op6, ?op7, ?noTail,
    decode_encode (i := .item 299) rfl, ?push, ?beyondUnchecked⟩
  case nop | pop | push => decide
  case beyond | op6 | op7 | noTail | beyondUnchecked => decide

end Sys2Proof
end
